-- ==== Sys2Proof/Word.lean ====
section
/-!
DEFINITION. The widths of the block, as R6 (00_scope.md) fixes them. Every value is an unsigned bit vector whose bit 0 is
its least significant bit (R7); the block has no signed value.
-/

namespace Sys2Proof

/-- One byte of a buffer or one colour channel (R25, R26). -/
abbrev Byte := BitVec 8

/-- `CMD_W` = 32: a command word (R44). -/
abbrev CmdWord := BitVec 32

/-- `RSP_W` = 32: a response word (R50). -/
abbrev RspWord := BitVec 32

/-- `LEN_W` = 31: the source length in bytes (R14, R46). -/
abbrev Len := BitVec 31

/-- `PIX_W` = 29: the index of a pixel (R15). -/
abbrev PixIndex := BitVec 29

/-- `OUT_LEN_W` = 30: the target length in bytes (R17). -/
abbrev OutLen := BitVec 30

/-- Width 2: a result code (R16, R51). -/
abbrev StatusCode := BitVec 2

/-- `SRC_ADDR_W` = 31: a source byte offset (R25, R41). -/
abbrev SrcAddr := BitVec 31

/-- `DST_ADDR_W` = 30: a target byte offset (R25, R42). -/
abbrev DstAddr := BitVec 30

/-- A packed pixel, the document's Pixel565Value (R61, R62). -/
abbrev Value16 := BitVec 16

end Sys2Proof
end

