-- ==== Sys2Proof/Syntax.lean ====
section
/-!
DEFINITION. The two commands as syntax (R45, R47), and the textual line `MNEMONIC len` (R52).
-/

namespace Sys2Proof

/-- The conversion mode: the whole opcode (R45). -/
inductive Mode where
  /-- PackedNativeMode, `MODE` = 0 -/
  | packedNative
  /-- BigEndianSwappedMode, `MODE` = 1 -/
  | bigEndianSwapped
deriving DecidableEq, Repr

/-- The value of the `MODE` bit (R13, R45). -/
def Mode.bit : Mode → BitVec 1
  | .packedNative => 0
  | .bigEndianSwapped => 1

/-- The commands: one constructor for each row of the opcode table (R47). The operand is the `LEN` field (R46). -/
inductive Instr where
  /-- `CONV_NATIVE len` (R73) -/
  | convNative (len : Len)
  /-- `CONV_SWAPPED len` (R74) -/
  | convSwapped (len : Len)
deriving DecidableEq, Repr

/-- The mode a command selects (R45). -/
def Instr.mode : Instr → Mode
  | .convNative _ => .packedNative
  | .convSwapped _ => .bigEndianSwapped

/-- The `LEN` operand of a command (R46). -/
def Instr.len : Instr → Len
  | .convNative len => len
  | .convSwapped len => len

/-- The command with a given mode and length (R44). -/
def Instr.ofModeLen : Mode → Len → Instr
  | .packedNative, len => .convNative len
  | .bigEndianSwapped, len => .convSwapped len

/-- A source line `MNEMONIC len` (R52): its length is whatever number is written, before any check that it fits. -/
structure CommandLine where
  mode : Mode
  len  : Nat
deriving DecidableEq, Repr

/-- The line that writes a command down (R52). -/
def Instr.toLine (i : Instr) : CommandLine := { mode := i.mode, len := i.len.toNat }

end Sys2Proof
end

