-- ==== Sys2Proof/WellFormed.lean ====
section
/-!
DEFINITION. Well-formedness. A command word has no illegal value (R48), so a term of `Instr`, whose operand has the width of
the `LEN` field, is well formed by its type. The one thing that can be ill formed is a written line whose length does not
fit the field (R46, R52).
-/

namespace Sys2Proof

/-- A written line names a command when its length fits the 31 bits of `LEN` (R46). A length that is no multiple of 4 is
well formed: it fails at execution (R48). -/
def CommandLine.wellFormed (c : CommandLine) : Bool := decide (c.len < 2 ^ 31)

/-- A command is well formed when the line that writes it is. -/
def Instr.wellFormed (i : Instr) : Bool := i.toLine.wellFormed

end Sys2Proof
end

