-- ==== Sys2Proof/Decode.lean ====
section
/-!
DEFINITION. The command word (R44 to R49): the decoder, which accepts every 32-bit word (R48), the encoder, the opcode
table of R47 as rows, and the textual form of R52.
-/

namespace Sys2Proof

/-- The command a word is: bit 31 selects the mode, bits 30 to 0 are `LEN` as they stand (R44, R45, R46). -/
def decodeWord (w : CmdWord) : Instr :=
  if w.getLsbD 31 then .convSwapped (w.extractLsb' 0 31) else .convNative (w.extractLsb' 0 31)

/-- Why a bit string is no command: every command is one 32-bit word (R44, R49). No 32-bit word is refused (R48). -/
inductive DecodeReject where
  /-- the string has another number of bits than 32 -/
  | notOneWord (nbits : Nat)
  /-- the number does not fit 32 bits -/
  | tooWide (w : Nat)
deriving DecidableEq, Repr

/-- The decoder on a string of `nbits` bits read as the number `w`. -/
def decodeBits (nbits w : Nat) : Except DecodeReject Instr :=
  if nbits = 32 then
    if w < 2 ^ 32 then .ok (decodeWord (BitVec.ofNat 32 w)) else .error (.tooWide w)
  else .error (.notOneWord nbits)

/-- The decoder as the opcode table numbers an instruction's bits. -/
def decodeTableWord (nbits w : Nat) : Option Instr :=
  match decodeBits nbits w with
  | .ok i => some i
  | .error _ => none

/-- The word of a command: `MODE` above `LEN` (R44, R52). -/
def encode (i : Instr) : CmdWord := i.mode.bit ++ i.len

/-- One row of the opcode map (R47). -/
structure OpcodeRow where
  mode       : Mode
  matchBits  : CmdWord
  mask       : CmdWord
deriving DecidableEq, Repr

/-- A word is the command of the row for which `w & mask = match` (R47). -/
def OpcodeRow.covers (r : OpcodeRow) (w : CmdWord) : Bool := w &&& r.mask == r.matchBits

/-- The two rows of R47. -/
def opcodeRows : List OpcodeRow :=
  [{ mode := .packedNative, matchBits := 0x00000000#32, mask := 0x80000000#32 },
   { mode := .bigEndianSwapped, matchBits := 0x80000000#32, mask := 0x80000000#32 }]

/-! The textual form of R52: `MNEMONIC len`, `len` decimal or hexadecimal after `0x`; one blank between them (log 15). -/

/-- The mnemonic of a mode (R52). -/
def mnemonicChars : Mode → List Char
  | .packedNative => ['C', 'O', 'N', 'V', '_', 'N', 'A', 'T', 'I', 'V', 'E']
  | .bigEndianSwapped => ['C', 'O', 'N', 'V', '_', 'S', 'W', 'A', 'P', 'P', 'E', 'D']

/-- The value of one digit, in either case for the letters. -/
def digitValue (c : Char) : Option Nat :=
  let n := c.toNat
  if 48 ≤ n ∧ n ≤ 57 then some (n - 48)
  else if 97 ≤ n ∧ n ≤ 102 then some (n - 87)
  else if 65 ≤ n ∧ n ≤ 70 then some (n - 55)
  else none

/-- The number a string of digits writes in a base, after the value read so far; none at a character that is no digit of
the base. -/
def digitsValue (base acc : Nat) : List Char → Option Nat
  | [] => some acc
  | c :: cs =>
    match digitValue c with
    | some d => if d < base then digitsValue base (base * acc + d) cs else none
    | none => none

/-- A byte count: hexadecimal after `0x`, else decimal; at least one digit (R52). -/
def numberValue : List Char → Option Nat
  | [] => none
  | ['0', 'x'] => none
  | '0' :: 'x' :: c :: cs => digitsValue 16 0 (c :: cs)
  | c :: cs => digitsValue 10 0 (c :: cs)

/-- What stands after a given prefix. -/
def afterPrefix : List Char → List Char → Option (List Char)
  | [], cs => some cs
  | p :: ps, c :: cs => if p = c then afterPrefix ps cs else none
  | _ :: _, [] => none

/-- A line that begins with the mnemonic of `m`. -/
def parseLineAs (m : Mode) (line : List Char) : Option CommandLine :=
  match afterPrefix (mnemonicChars m ++ [' ']) line with
  | some rest => (numberValue rest).map (fun n => { mode := m, len := n })
  | none => none

/-- The line a text writes (R52). -/
def parseLine (line : List Char) : Option CommandLine :=
  (parseLineAs .packedNative line).orElse (fun _ => parseLineAs .bigEndianSwapped line)

/-- The command word of a line: `(MODE << 31) | len` (R52); none where the text is no line or its length does not fit. -/
def assembleLine (line : List Char) : Option CmdWord :=
  match parseLine line with
  | some c => if c.wellFormed then some (encode (.ofModeLen c.mode (BitVec.ofNat 31 c.len))) else none
  | none => none

/-- A program, one command a line (R52): the words the host hands over in order. -/
def assemble : List (List Char) → Option (List CmdWord)
  | [] => some []
  | l :: ls =>
    match assembleLine l, assemble ls with
    | some w, some ws => some (w :: ws)
    | _, _ => none

end Sys2Proof
end

