-- ==== Sys2Proof/Config.lean ====
section
/-!
DEFINITION. What an instance of the block fixes: the one open parameter, `NATIVE_BYTE_ORDER` (R6; 92_eei_decisions.md D6).
-/

namespace Sys2Proof

/-- The two byte orders of R66. -/
inductive ByteOrder where
  /-- least significant byte at the lower offset (R68) -/
  | little
  /-- most significant byte at the lower offset (R67) -/
  | big
deriving DecidableEq, Repr, Inhabited

/-- `NATIVE_BYTE_ORDER` of the instance (R6): open in the spec, so it has no body and nothing can be proved of its value
(log 1). -/
opaque Config.nativeByteOrder : ByteOrder

end Sys2Proof
end

