-- ==== Sys2Proof/Machine/State.lean ====
section
/-!
DEFINITION. The state of one instance: the six registers of R10, the two buffers and the other agents' state (R9) as plain
data, the state after reset (R22), and the reasons a step can stop.
-/

namespace Sys2Proof.Machine

/-- What the sequencer is doing (R12). The value 3 of the 2-bit register is never taken, so the type leaves it out
(R12, M10 of 93_implementation_defined.md; log 10). -/
inductive Phase where
  /-- 0: no command in progress -/
  | idle
  /-- 1: a command passed validation, pixel steps are being taken -/
  | run
  /-- 2: the command is over, its response word is offered -/
  | resp
deriving DecidableEq, Repr

/-- Which port transaction of the pixel step is due, with the source bytes read before it (R36; the transient values of
R20). Between two pixel steps it is `readRed`. -/
inductive PixelStage where
  | readRed
  | readGreen (r : Byte)
  | readBlue (r g : Byte)
  /-- the only write of PackedNativeMode, the first of BigEndianSwappedMode -/
  | writeFirst (r g b : Byte)
  /-- the second write of BigEndianSwappedMode -/
  | writeSecond (r g b : Byte)
deriving DecidableEq, Repr

/-- A buffer: the bytes that differ from what an unlisted offset reads as, by rising offset. -/
abbrev Memory := List Host.Cell

/-- What the environment drives at one rising edge of `clk`, and the bytes the host itself writes at that edge
(R104, R105, R116; log 5). -/
structure Edge where
  /-- the reset input (R105) -/
  rst       : Bool
  /-- the host holds `cmd_valid` low although it has a command to hand over (R53) -/
  cmdHold   : Bool
  /-- `rsp_ready` (R50) -/
  rspReady  : Bool
  /-- `src_ack` (R41); ignored without a request (R116) -/
  srcAck    : Bool
  /-- `dst_ack` (R42); ignored without a request (R116) -/
  dstAck    : Bool
  /-- bytes the host writes into `SRC` at this edge (R104: prepare `SRC`) -/
  srcWrites : List (SrcAddr × Byte)
  /-- bytes the host writes into `DST` at this edge (R104: provide `DST`) -/
  dstWrites : List (DstAddr × Byte)
deriving DecidableEq, Repr

/-- What the environment drives at every edge once its listed entries are over. A memory that does not answer, or a host
that does not offer or take, does so for ever (R118; log 5). -/
structure Steady where
  /-- the reset input (R105) -/
  rst        : Bool
  /-- the host holds `cmd_valid` low although it has a command to hand over (R53) -/
  cmdHold    : Bool
  /-- `rsp_ready` (R50) -/
  rspReady   : Bool
  /-- the source memory acknowledges every read (R41) -/
  srcAnswers : Bool
  /-- the target memory acknowledges every write (R42) -/
  dstAnswers : Bool
deriving DecidableEq, Repr

/-- The environment that supplies at once whatever the block waits for. -/
def Steady.ready : Steady where
  rst := false
  cmdHold := false
  rspReady := true
  srcAnswers := true
  dstAnswers := true

/-- One instance of the block with its environment. -/
structure State where
  /-- `PHASE` (R12) -/
  phase           : Phase
  /-- `MODE` (R13) -/
  mode            : Mode
  /-- `LEN` (R14) -/
  len             : Len
  /-- `PIX` (R15) -/
  pix             : PixIndex
  /-- `STATUS` (R16) -/
  status          : StatusCode
  /-- `OUT_LEN` (R17) -/
  outLen          : OutLen
  /-- the transaction in flight (R20, R24; log 4) -/
  stage           : PixelStage
  /-- `NATIVE_BYTE_ORDER`, a constant of the instance that no step writes (R6; log 1) -/
  nativeByteOrder : ByteOrder
  /-- the buffer `SRC` (R25, R26) -/
  src             : Memory
  /-- the buffer `DST` (R25, R27) -/
  dst             : Memory
  /-- command words the host has yet to hand over, the first is on `cmd_word` (R53; log 6) -/
  commands        : List CmdWord
  /-- response words the host has taken, oldest first (R50, R77; log 17) -/
  responses       : List RspWord
  /-- what the environment drives at the coming edges, the next first (R104; log 5) -/
  script          : List Edge
  /-- what it drives at every edge after those, for ever (R118; log 5) -/
  steady          : Steady
deriving DecidableEq, Repr

/-- Why a step faults. -/
inductive Fault where
  /-- Raised by the sequencer in phase `RUN` when no step of R88 is enabled: `4 * PIX > LEN`, or the second write of a
  native pixel. R88 says this never happens, and no state that keeps the invariant reaches it. Safe: the model stops
  (log 9). -/
  | noStepEnabled
deriving DecidableEq, Repr

/-- Why a step has no meaning. -/
inductive Refusal where
  /-- An instruction without a meaning; none is left, so nothing raises it. Safe. -/
  | notModelled (mnemonic : String)
  /-- Raised by the step when the host writes a byte of `SRC` below `LEN` between handover and response (R109; `refuse`
  by M1 of 93_implementation_defined.md). Safe: the model stops (log 8). -/
  | sourceChanged
  /-- Raised by the step when the host writes a byte of `DST` below `LEN / 2` between handover and response (R110;
  `refuse` by M2 of 93_implementation_defined.md). Safe: the model stops (log 8). -/
  | targetTouched
deriving DecidableEq, Repr

/-- The state right after reset: the registers at the values of R22, nothing in flight, nothing listed in either buffer,
a host with nothing to hand over, an environment that is ready (log 2, 3). The byte order is the instance's, which reset
does not choose (R22). -/
def State.reset : State where
  phase := .idle
  mode := .packedNative
  len := 0
  pix := 0
  status := 0
  outLen := 0
  stage := .readRed
  nativeByteOrder := Config.nativeByteOrder
  src := []
  dst := []
  commands := []
  responses := []
  script := []
  steady := .ready

/-! The updates the operations are made of; Laws/State.lean has one lemma for each field under each of them. -/

/-- Write `PHASE`. -/
def State.setPhase (s : State) (p : Phase) : State := { s with phase := p }

/-- Write `MODE` and `LEN`, as the accept does (R72). -/
def State.setCommand (s : State) (m : Mode) (n : Len) : State := { s with mode := m, len := n }

/-- Write `PIX`. -/
def State.setPix (s : State) (i : PixIndex) : State := { s with pix := i }

/-- Write `STATUS` and `OUT_LEN`. -/
def State.setResult (s : State) (c : StatusCode) (n : OutLen) : State := { s with status := c, outLen := n }

/-- Move on to another port transaction. -/
def State.setStage (s : State) (g : PixelStage) : State := { s with stage := g }

/-- Another content of `SRC`. -/
def State.setSrc (s : State) (m : Memory) : State := { s with src := m }

/-- Another content of `DST`. -/
def State.setDst (s : State) (m : Memory) : State := { s with dst := m }

/-- The host's first command has been handed over. -/
def State.popCommand (s : State) : State := { s with commands := s.commands.tail }

/-- The host has taken a response word. -/
def State.pushResponse (s : State) (r : RspWord) : State := { s with responses := s.responses ++ [r] }

/-- The clock edge is over. -/
def State.popEdge (s : State) : State := { s with script := s.script.tail }

end Sys2Proof.Machine
end

