-- ==== Sys2Proof/Machine/Datapath.lean ====
section
/-!
DEFINITION. The four combinational sub-blocks (R1): `color_channel_truncator` (40_truncator.md), the two packers
(41_packers.md), `endian_serializer_16bit` (42_serializer.md).
-/

namespace Sys2Proof.Machine

/-- The truncated channels of a pixel (R55). -/
structure Channels where
  r5 : BitVec 5
  g6 : BitVec 6
  b5 : BitVec 5
deriving DecidableEq, Repr

/-- `trunc`: `r5 = R8[7:3]`, `g6 = G8[7:2]`, `b5 = B8[7:3]` (R56, R57, R58). -/
def trunc (r8 g8 b8 : Byte) : Channels where
  r5 := r8.extractLsb' 3 5
  g6 := g8.extractLsb' 2 6
  b5 := b8.extractLsb' 3 5

/-- `pixel_packer_rgb565_native`: red, green, blue from the top (R61). -/
def packNative (c : Channels) : Value16 := c.r5 ++ c.g6 ++ c.b5

/-- `pixel_packer_bgr565_swapped`: blue, green, red from the top (R62). -/
def packSwapped (c : Channels) : Value16 := c.b5 ++ c.g6 ++ c.r5

/-- `endian_serializer_16bit`: the byte for the lower offset, then the byte for the higher (R66, R67, R68). -/
def serialize (v : Value16) : ByteOrder → Byte × Byte
  | .big => (v.extractLsb' 8 8, v.extractLsb' 0 8)
  | .little => (v.extractLsb' 0 8, v.extractLsb' 8 8)

/-- The packer of a mode (R75). -/
def packFor : Mode → Channels → Value16
  | .packedNative => packNative
  | .bigEndianSwapped => packSwapped

/-- The serializer's order: the constant `BIG` in BigEndianSwappedMode, the instance's in PackedNativeMode (R69). -/
def orderFor : Mode → ByteOrder → ByteOrder
  | .packedNative, native => native
  | .bigEndianSwapped, _ => .big

/-- The two target bytes of one pixel, in ascending offset (R78). -/
def pixelBytes (m : Mode) (native : ByteOrder) (r g b : Byte) : Byte × Byte :=
  serialize (packFor m (trunc r g b)) (orderFor m native)

end Sys2Proof.Machine
end

