-- ==== Sys2Proof/Machine/Flags.lean ====
section
/-!
DEFINITION. The block has no flags (R18); its only result indication is `STATUS` with `OUT_LEN`. Here are the length check,
the result codes, the output length and the response word.
-/

namespace Sys2Proof.Machine

/-- The two error kinds of the document (R89). The block raises the second only (R91). -/
inductive ErrorKind where
  | invalidArgumentType
  | invalidInputLength
deriving DecidableEq, Repr

/-- Code 0, `OK` (R51). -/
def statusOk : StatusCode := 0

/-- The code of an error kind (R51). -/
def errorCode : ErrorKind → StatusCode
  | .invalidInputLength => 1
  | .invalidArgumentType => 2

/-- The length check: `LEN % 4 = 0`, that is `LEN[1:0] = 0` (R72, R86, R90). -/
def lengthValid (len : Len) : Bool := len.extractLsb' 0 2 == 0#2

/-- `OUT_LEN` of a valid length: `LEN[30:1]`, which is `LEN / 2` (R17, R72). -/
def outLenOf (len : Len) : OutLen := len.extractLsb' 1 30

/-- A response word: `STATUS` in bits 31 to 30, `OUT_LEN` in bits 29 to 0 (R50). -/
def responseWord (c : StatusCode) (n : OutLen) : RspWord := c ++ n

/-- The 2-bit code of a phase (R12). -/
def phaseCode : Phase → BitVec 2
  | .idle => 0
  | .run => 1
  | .resp => 2

end Sys2Proof.Machine
end

