-- ==== Sys2Proof/Machine/Operands.lean ====
section
/-!
DEFINITION. What a step works on: the command on the channel or in progress, the source and target offsets (R84), the
requests on the two memory ports (R41, R42), and what the environment drives at the coming clock edge.
-/

namespace Sys2Proof.Machine

/-- Source offset `4 * PIX + k`, at 31 bits (R84). -/
def sourceOffset (pix : PixIndex) (k : Nat) : SrcAddr := BitVec.ofNat 31 (4 * pix.toNat + k)

/-- Target offset `2 * PIX`, at 30 bits: the only value `dst_addr` takes (R42, R84). -/
def targetOffset (pix : PixIndex) : DstAddr := BitVec.ofNat 30 (2 * pix.toNat)

/-- Some pixel is left: `4 * PIX < LEN` (R75). -/
def State.pixelLeft (s : State) : Bool := decide (4 * s.pix.toNat < s.len.toNat)

/-- No pixel is left: `4 * PIX = LEN` (R76). -/
def State.passOver (s : State) : Bool := decide (4 * s.pix.toNat = s.len.toNat)

/-- A request on the target write port: `dst_addr`, `dst_be`, `dst_wdata` (R42). -/
structure DstWrite where
  addr  : DstAddr
  be    : BitVec 2
  wdata : BitVec 16
deriving DecidableEq, Repr

/-- The 2-byte write of a native pixel: both lanes, `byte0` in lane 0 and `byte1` in lane 1 (R42). -/
def nativeWrite (native : ByteOrder) (pix : PixIndex) (r g b : Byte) : DstWrite :=
  let bytes := serialize (packNative (trunc r g b)) native
  { addr := targetOffset pix, be := 3, wdata := bytes.2 ++ bytes.1 }

/-- The first write of a swapped pixel: `byte0` in lane 0, lane 1 disabled and driven to 0x00 (R42). -/
def swappedFirstWrite (pix : PixIndex) (r g b : Byte) : DstWrite :=
  let bytes := serialize (packSwapped (trunc r g b)) .big
  { addr := targetOffset pix, be := 1, wdata := 0#8 ++ bytes.1 }

/-- The second write of a swapped pixel: `byte1` in lane 1, lane 0 disabled and driven to 0x00 (R42). -/
def swappedSecondWrite (pix : PixIndex) (r g b : Byte) : DstWrite :=
  let bytes := serialize (packSwapped (trunc r g b)) .big
  { addr := targetOffset pix, be := 2, wdata := bytes.2 ++ 0#8 }

/-- The source read the sequencer is waiting for, if any: its offset (R36, R41). Outside phase `RUN` there is none. -/
def State.srcRequest (s : State) : Option SrcAddr :=
  if s.phase = .run ∧ s.pixelLeft then
    match s.stage with
    | .readRed => some (sourceOffset s.pix 0)
    | .readGreen _ => some (sourceOffset s.pix 1)
    | .readBlue _ _ => some (sourceOffset s.pix 2)
    | .writeFirst _ _ _ => none
    | .writeSecond _ _ _ => none
  else none

/-- The target write the sequencer is waiting for, if any (R36, R42). Outside phase `RUN` there is none. -/
def State.dstRequest (s : State) : Option DstWrite :=
  if s.phase = .run ∧ s.pixelLeft then
    match s.stage, s.mode with
    | .writeFirst r g b, .packedNative => some (nativeWrite s.nativeByteOrder s.pix r g b)
    | .writeFirst r g b, .bigEndianSwapped => some (swappedFirstWrite s.pix r g b)
    | .writeSecond r g b, .bigEndianSwapped => some (swappedSecondWrite s.pix r g b)
    | .writeSecond _ _ _, .packedNative => none
    | .readRed, _ => none
    | .readGreen _, _ => none
    | .readBlue _ _, _ => none
  else none

/-- What the environment drives at the coming edge: the first entry of the script; after the last one, what `steady` says,
a memory's acknowledge being given with its request or never, and no write of the host's (R118; log 5). -/
def State.edge (s : State) : Edge :=
  match s.script with
  | e :: _ => e
  | [] =>
    { rst := s.steady.rst, cmdHold := s.steady.cmdHold, rspReady := s.steady.rspReady,
      srcAck := s.srcRequest.isSome && s.steady.srcAnswers, dstAck := s.dstRequest.isSome && s.steady.dstAnswers,
      srcWrites := [], dstWrites := [] }

/-! The lines of the block at the coming edge; every handshake output is gated by `rst` (R105). -/

/-- `cmd_ready` (R23, R53). -/
def State.cmdReady (s : State) : Bool := decide (s.phase = .idle) && !s.edge.rst

/-- `cmd_valid`, which the host drives (R53). -/
def State.cmdValid (s : State) : Bool := !s.commands.isEmpty && !s.edge.cmdHold

/-- `rsp_valid` (R23, R50). -/
def State.rspValid (s : State) : Bool := decide (s.phase = .resp) && !s.edge.rst

/-- `rsp_word`: `{STATUS, OUT_LEN}` in phase `RESP`, 0 outside it (R50). -/
def State.rspWord (s : State) : RspWord := if s.phase = .resp then responseWord s.status s.outLen else 0

/-- `src_req` (R41, R105). -/
def State.srcReq (s : State) : Bool := s.srcRequest.isSome && !s.edge.rst

/-- `dst_req` (R42, R105). -/
def State.dstReq (s : State) : Bool := s.dstRequest.isSome && !s.edge.rst

/-- The command in progress in phases `RUN` and `RESP`: `MODE` and `LEN` are the sampled word's fields (R13, R14; log 7). -/
def State.inProgress (s : State) : Instr := .ofModeLen s.mode s.len

/-- The command whose step is due at an edge with `rst` = 0: in `IDLE` the word offered on the channel, if `cmd_valid` = 1;
else the command in progress (R72, R88; log 7). -/
def State.due (s : State) : Option Instr :=
  match s.phase with
  | .idle => if s.cmdValid then s.commands.head?.map decodeWord else none
  | .run => some s.inProgress
  | .resp => some s.inProgress

end Sys2Proof.Machine
end

