-- ==== Sys2Proof/Machine/Ops.lean ====
section
/-!
DEFINITION. The shared operations: reading and writing a buffer (R28, R29), the port transactions (R41, R42), the accept
(R72), the error entry (R95) and the return (R77, R96), the reset edge (R105), and what the host does at an edge (R104).
-/

namespace Sys2Proof.Machine

/-! ### A buffer as a list of cells -/

/-- What an offset that no cell lists reads as: the spec gives no content of a buffer the host has not prepared (log 3). -/
def Memory.unlisted : Byte := 0

/-- The byte at an offset. -/
def Memory.read : Memory → Nat → Byte
  | [], _ => Memory.unlisted
  | (k, b) :: m, a => if k = a then b else Memory.read m a

/-- Take the cells of one offset out. -/
def Memory.erase : Memory → Nat → Memory
  | [], _ => []
  | (k, b) :: m, a => if k = a then Memory.erase m a else (k, b) :: Memory.erase m a

/-- Put a cell in before the first higher offset. -/
def Memory.insert : Memory → Nat → Byte → Memory
  | [], a, v => [(a, v)]
  | (k, b) :: m, a, v => if a < k then (a, v) :: (k, b) :: m else (k, b) :: Memory.insert m a v

/-- Write one byte; a byte equal to what an unlisted offset reads as is not listed. -/
def Memory.write (m : Memory) (a : Nat) (v : Byte) : Memory :=
  if v = Memory.unlisted then Memory.erase m a else Memory.insert (Memory.erase m a) a v

/-- The canonical form from an offset on: offsets rise strictly, and no cell holds the unlisted byte. -/
def Memory.wfFrom : Nat → Memory → Bool
  | _, [] => true
  | lo, (k, b) :: m => decide (lo ≤ k) && !(b == Memory.unlisted) && Memory.wfFrom (k + 1) m

/-- The canonical form of a buffer. -/
def Memory.wf (m : Memory) : Bool := Memory.wfFrom 0 m

/-- Every listed offset lies in a space of `size` bytes (R25). -/
def Memory.within (size : Nat) (m : Memory) : Bool := m.all (fun c => decide (c.1 < size))

/-! ### The access primitives -/

/-- `MemRead(SRC, a, 1)` (R28). -/
def memRead (m : Memory) (a : SrcAddr) : Byte := Memory.read m a.toNat

/-- `MemWrite(DST, a, 1, b)` (R29). -/
def memWriteByte (m : Memory) (a : DstAddr) (b : Byte) : Memory := Memory.write m a.toNat b

/-- `MemWrite(DST, a, 2, v)` in a byte order (R29). -/
def memWriteUnit (order : ByteOrder) (m : Memory) (a : DstAddr) (v : Value16) : Memory :=
  match order with
  | .little => Memory.write (Memory.write m a.toNat (v.extractLsb' 0 8)) (a.toNat + 1) (v.extractLsb' 8 8)
  | .big => Memory.write (Memory.write m a.toNat (v.extractLsb' 8 8)) (a.toNat + 1) (v.extractLsb' 0 8)

/-- What the target memory does with a write: lane 0 goes to `DST[dst_addr]`, lane 1 to `DST[dst_addr + 1]`, each if its
byte enable is 1 (R42). -/
def applyLanes (m : Memory) (w : DstWrite) : Memory :=
  let m := if w.be.getLsbD 0 then Memory.write m w.addr.toNat (w.wdata.extractLsb' 0 8) else m
  if w.be.getLsbD 1 then Memory.write m (w.addr.toNat + 1) (w.wdata.extractLsb' 8 8) else m

/-! ### Outcomes -/

/-- Go on from a next state; a stop stays a stop. -/
def mapNext (f : State → State) : Host.Outcome State Fault Refusal → Host.Outcome State Fault Refusal
  | .next s => .next (f s)
  | .fault r => .fault r
  | .refused r => .refused r

/-! ### The error entry, the accept, the return -/

/-- `raise e`: `STATUS` takes the error's code, `OUT_LEN` 0, and the response is offered (R95, R8). -/
def raiseError (e : ErrorKind) (s : State) : State := (s.setResult (errorCode e) 0).setPhase .resp

/-- The step `accept` (R72): `MODE`, `LEN` and `PIX` are written whatever the length, then the length is checked. The host's
word is taken off the channel and no transaction is in flight. -/
def accept (m : Mode) (len : Len) (s : State) : State :=
  let t := (((s.setCommand m len).setPix 0).setStage .readRed).popCommand
  if lengthValid len then (t.setResult statusOk (outLenOf len)).setPhase .run
  else raiseError .invalidInputLength t

/-- The step `respond` (R77), the return from a success and from an error alike (R96): it waits for `rsp_ready`. -/
def respond (s : State) : Host.Outcome State Fault Refusal :=
  if s.edge.rspReady then .next ((s.pushResponse s.rspWord).setPhase .idle) else .next s

/-! ### The port transactions of a pixel step -/

/-- Read `SRC[4 * PIX + k]`: at an edge with `src_ack` = 1 the byte is taken, else the request stays up (R41). -/
def readSource (k : Nat) (next : Byte → PixelStage) (s : State) : Host.Outcome State Fault Refusal :=
  if s.edge.srcAck then .next (s.setStage (next (memRead s.src (sourceOffset s.pix k)))) else .next s

/-- Write a target request: at an edge with `dst_ack` = 1 it is performed, else it stays up (R42). -/
def writeTarget (w : DstWrite) (after : State → State) (s : State) : Host.Outcome State Fault Refusal :=
  if s.edge.dstAck then .next (after (s.setDst (applyLanes s.dst w))) else .next s

/-- The end of a pixel step: `PIX <- i + 1` (R75). -/
def nextPixel (s : State) : State := (s.setPix (s.pix + 1)).setStage .readRed

/-! ### The sequencer -/

/-- One step of the command of mode `m` and length `len`, at an edge with `rst` = 0 (R71, R88): `accept` in `IDLE`; in
`RUN` a transaction of the pixel step while `4 * PIX < LEN`, `finish` when `4 * PIX = LEN` (R76); `respond` in `RESP`. -/
def commandStep (m : Mode) (len : Len) (pixel : State → Host.Outcome State Fault Refusal) (s : State) :
    Host.Outcome State Fault Refusal :=
  match s.phase with
  | .idle => .next (accept m len s)
  | .run =>
    if s.pixelLeft then pixel s
    else if s.passOver then .next (s.setPhase .resp)
    else .fault .noStepEnabled
  | .resp => respond s

/-! ### The clock edge around a step -/

/-- A rising edge with `rst` = 1: the registers take the values of R22, the request in flight is withdrawn (R105, R107);
`SRC`, `DST` and the host's lists are not touched. -/
def resetEdge (s : State) : State :=
  ((((s.setPhase .idle).setCommand .packedNative 0).setPix 0).setResult statusOk 0).setStage .readRed

/-- The host has broken a prohibition of R104: between handover and response it writes `SRC` below `LEN` (R109) or `DST`
below `LEN / 2` (R110). Both are `refuse` in 93_implementation_defined.md (M1, M2; log 8). -/
def hostMisuse (s : State) : Option Refusal :=
  if s.phase = .idle ∨ s.edge.rst then none
  else if s.edge.srcWrites.any (fun c => decide (c.1.toNat < s.len.toNat)) then some .sourceChanged
  else if s.edge.dstWrites.any (fun c => decide (c.1.toNat < s.len.toNat / 2)) then some .targetTouched
  else none

/-- The host's writes into `SRC` (R104). -/
def hostWriteSrc (m : Memory) (ws : List (SrcAddr × Byte)) : Memory :=
  ws.foldl (fun m c => Memory.write m c.1.toNat c.2) m

/-- The host's writes into `DST` (R104). -/
def hostWriteDst (m : Memory) (ws : List (DstAddr × Byte)) : Memory :=
  ws.foldl (fun m c => Memory.write m c.1.toNat c.2) m

/-- The end of an edge: the host's own writes land, and the environment's next entry comes up. -/
def endEdge (e : Edge) (s : State) : State :=
  ((s.setSrc (hostWriteSrc s.src e.srcWrites)).setDst (hostWriteDst s.dst e.dstWrites)).popEdge

/-- An entry at which the host offers its command and nothing else happens: no reset, no answer, no write. -/
def Edge.quiet : Edge where
  rst := false
  cmdHold := false
  rspReady := false
  srcAck := false
  dstAck := false
  srcWrites := []
  dstWrites := []

/-- Put a command word where the next step takes it from (log 6): the block idle, the word first on the host's channel, and
one entry at which the host offers it before what the environment does next. -/
def placeCommand (s : State) (w : CmdWord) : State :=
  { s with phase := .idle, commands := w :: s.commands, script := Edge.quiet :: s.script }

end Sys2Proof.Machine
end

