-- ==== Sys2Proof/Machine/Conv.lean ====
section
/-!
DEFINITION. The two commands (43_commands.md). A meaning is one step of the command's life (R71) at one rising edge: the
accept, one port transaction of a pixel step, the finish or the respond.
-/

namespace Sys2Proof.Machine

/-- The pixel step of `CONV_NATIVE` (R73, R75 with `MODE` = 0), one transaction at a time: three reads, then one 2-byte
write of `pack_n(trunc(R, G, B))` in `NATIVE_BYTE_ORDER`, after which `PIX` advances. -/
def nativePixel (s : State) : Host.Outcome State Fault Refusal :=
  match s.stage with
  | .readRed => readSource 0 (fun r => .readGreen r) s
  | .readGreen r => readSource 1 (fun g => .readBlue r g) s
  | .readBlue r g => readSource 2 (fun b => .writeFirst r g b) s
  | .writeFirst r g b => writeTarget (nativeWrite s.nativeByteOrder s.pix r g b) nextPixel s
  | .writeSecond _ _ _ => .fault .noStepEnabled

/-- The pixel step of `CONV_SWAPPED` (R74, R75 with `MODE` = 1), one transaction at a time: three reads, then the most
significant byte of `pack_s(trunc(R, G, B))`, then the least significant byte, after which `PIX` advances. -/
def swappedPixel (s : State) : Host.Outcome State Fault Refusal :=
  match s.stage with
  | .readRed => readSource 0 (fun r => .readGreen r) s
  | .readGreen r => readSource 1 (fun g => .readBlue r g) s
  | .readBlue r g => readSource 2 (fun b => .writeFirst r g b) s
  | .writeFirst r g b => writeTarget (swappedFirstWrite s.pix r g b) (fun t => t.setStage (.writeSecond r g b)) s
  | .writeSecond r g b => writeTarget (swappedSecondWrite s.pix r g b) nextPixel s

/-- `CONV_NATIVE len` (R73). -/
def execConvNative (len : Len) (s : State) : Host.Outcome State Fault Refusal :=
  commandStep .packedNative len nativePixel s

/-- `CONV_SWAPPED len` (R74). -/
def execConvSwapped (len : Len) (s : State) : Host.Outcome State Fault Refusal :=
  commandStep .bigEndianSwapped len swappedPixel s

end Sys2Proof.Machine
end

