-- ==== Sys2Proof/Machine/Dispatch.lean ====
section
/-!
DEFINITION. The dispatch from a command to its meaning, one arm for each row of the opcode table.
-/

namespace Sys2Proof.Machine

def exec (i : Instr) (s : State) : Host.Outcome State Fault Refusal :=
  match i with
  | .convNative len => Sys2Proof.Machine.execConvNative len s
  | .convSwapped len => Sys2Proof.Machine.execConvSwapped len s

end Sys2Proof.Machine
end

