-- ==== Sys2Proof/Machine/Step.lean ====
section
/-!
DEFINITION. One step of the machine: one rising edge of `clk` (log 4, 5).
-/

namespace Sys2Proof.Machine

/-- One rising edge. A host that breaks R109 or R110 is refused; with `rst` = 1 the registers are reset, whatever step would
otherwise have been taken (R105); else the step of the command that is due is taken, or the block waits for a command
(R88). Then the host's own writes land and the environment's next entry comes up. -/
def step (s : State) : Host.Outcome State Fault Refusal :=
  match hostMisuse s with
  | some r => .refused r
  | none =>
    if s.edge.rst then .next (endEdge s.edge (resetEdge s))
    else
      match s.due with
      | some i => mapNext (endEdge s.edge) (exec i s)
      | none => .next (endEdge s.edge s)

/-- A state whose next step takes the command word `w` from the channel (log 6). -/
def State.withFetchWord (s : State) (nbits w : Nat) : State :=
  placeCommand s (BitVec.ofNat 32 (w % 2 ^ nbits))

end Sys2Proof.Machine
end

