-- ==== Sys2Proof/Machine/Reference.lean ====
section
/-!
DEFINITION. What a command computes as a whole: the reference function of R78, the pixel step of R75 as one transition, and
the port transactions a command issues (R32, R36).
-/

namespace Sys2Proof.Machine

/-- The target bytes of the whole pixels of a buffer, in ascending order (R78, R26, R27). -/
def convPixels (m : Mode) (native : ByteOrder) : List Byte → List Byte
  | r :: g :: b :: _ :: rest => (pixelBytes m native r g b).1 :: (pixelBytes m native r g b).2 :: convPixels m native rest
  | _ => []

/-- The reference function `conv(mode, order, src)` (R78). -/
def conv (m : Mode) (native : ByteOrder) (src : List Byte) : Except ErrorKind (List Byte) :=
  if src.length % 4 = 0 then .ok (convPixels m native src) else .error .invalidInputLength

/-- The first `n` bytes of a buffer. -/
def Memory.bytes (m : Memory) (n : Nat) : List Byte := (List.range n).map (fun a => Memory.read m a)

/-- The step `pixel` as one transition (R75), written with the access primitives. -/
def pixelStep (s : State) : State :=
  let r8 := memRead s.src (sourceOffset s.pix 0)
  let g8 := memRead s.src (sourceOffset s.pix 1)
  let b8 := memRead s.src (sourceOffset s.pix 2)
  let c := trunc r8 g8 b8
  match s.mode with
  | .packedNative => nextPixel (s.setDst (memWriteUnit s.nativeByteOrder s.dst (targetOffset s.pix) (packNative c)))
  | .bigEndianSwapped =>
    let bytes := serialize (packSwapped c) .big
    nextPixel (s.setDst
      (memWriteByte (memWriteByte s.dst (targetOffset s.pix) bytes.1) (targetOffset s.pix + 1) bytes.2))

/-- A transaction performed on one of the two memory ports (R41, R42). -/
inductive PortEvent where
  | read (a : SrcAddr) (b : Byte)
  | write (w : DstWrite)
deriving DecidableEq, Repr

/-- The transactions of pixel `i` in program order (R32, R36). -/
def pixelTrace (m : Mode) (native : ByteOrder) (src : Memory) (i : PixIndex) : List PortEvent :=
  let r := memRead src (sourceOffset i 0)
  let g := memRead src (sourceOffset i 1)
  let b := memRead src (sourceOffset i 2)
  [.read (sourceOffset i 0) r, .read (sourceOffset i 1) g, .read (sourceOffset i 2) b] ++
    match m with
    | .packedNative => [.write (nativeWrite native i r g b)]
    | .bigEndianSwapped => [.write (swappedFirstWrite i r g b), .write (swappedSecondWrite i r g b)]

/-- The transactions of a command over `n` pixels, in program order (R36). -/
def commandTrace (m : Mode) (native : ByteOrder) (src : Memory) (n : Nat) : List PortEvent :=
  (List.range n).flatMap (fun i => pixelTrace m native src (BitVec.ofNat 29 i))

end Sys2Proof.Machine
end

