-- ==== Sys2Proof/Machine/Observe.lean ====
section
/-!
DEFINITION. What can be seen of a run: the port transactions performed and the converter steps completed, edge by edge, and
how many target bytes are written.
-/

namespace Sys2Proof.Machine

/-- The four steps of the converter (R71). -/
inductive ConvStep where
  | accept
  | pixel
  | finish
  | respond
deriving DecidableEq, Repr

/-- The transaction performed at the coming edge, if any: a request is up and acknowledged (R41, R42, R116). -/
def State.portEvent (s : State) : Option PortEvent :=
  if s.edge.rst then none
  else
    match s.srcRequest, s.dstRequest with
    | some a, _ => if s.edge.srcAck then some (.read a (memRead s.src a)) else none
    | none, some w => if s.edge.dstAck then some (.write w) else none
    | none, none => none

/-- The last transaction of a pixel step is due (R75). -/
def State.lastTransaction (s : State) : Bool :=
  match s.stage, s.mode with
  | .writeFirst _ _ _, .packedNative => true
  | .writeSecond _ _ _, .bigEndianSwapped => true
  | _, _ => false

/-- The converter step completed at the coming edge, if any (R71, R88). -/
def State.completes (s : State) : Option ConvStep :=
  if s.edge.rst then none
  else
    match s.phase with
    | .idle => if s.cmdValid then some .accept else none
    | .run =>
      if s.pixelLeft then (if s.lastTransaction && s.edge.dstAck then some .pixel else none)
      else if s.passOver then some .finish
      else none
    | .resp => if s.edge.rspReady then some .respond else none

/-- The bytes of the target the command in progress has written: none before the handover, then two for each pixel below
`PIX`, and one more between the two writes of a swapped pixel. The spec gives the number as that of the bytes acknowledged
(R107) and no formula in `PIX` (C11 of 90_conflicts.md); this one holds because the model's `PIX` advances at the edge of a
pixel's last acknowledge (log 4). -/
def State.targetBytesWritten (s : State) : Nat :=
  if s.phase = .idle then 0
  else
    2 * s.pix.toNat +
      match s.stage with
      | .writeSecond _ _ _ => 1
      | .readRed => 0
      | .readGreen _ => 0
      | .readBlue _ _ => 0
      | .writeFirst _ _ _ => 0

/-- The machine after `k` edges, or where it stopped. -/
def runEdges (k : Nat) (s : State) : Host.Outcome State Fault Refusal :=
  match k with
  | 0 => .next s
  | k + 1 =>
    match step s with
    | .next t => runEdges k t
    | .fault r => .fault r
    | .refused r => .refused r

/-- The transactions performed in the first `k` edges, in order. -/
def trace (k : Nat) (s : State) : List PortEvent :=
  match k with
  | 0 => []
  | k + 1 =>
    s.portEvent.toList ++
      match step s with
      | .next t => trace k t
      | .fault _ => []
      | .refused _ => []

/-- The converter steps completed in the first `k` edges, in order. -/
def stepsTaken (k : Nat) (s : State) : List ConvStep :=
  match k with
  | 0 => []
  | k + 1 =>
    s.completes.toList ++
      match step s with
      | .next t => stepsTaken k t
      | .fault _ => []
      | .refused _ => []

/-- The bytes of the target that the transactions write: one for each byte enable (R42, R107). -/
def bytesAcknowledged : List PortEvent → Nat
  | [] => 0
  | .read _ _ :: es => bytesAcknowledged es
  | .write w :: es => (w.be.getLsbD 0).toNat + (w.be.getLsbD 1).toNat + bytesAcknowledged es

end Sys2Proof.Machine
end

