-- ==== Sys2Proof/Safety.lean ====
section
/-!
DEFINITION. What a safe run is: the invariants the rules give, and the environment a claim about a whole command assumes
(the premises R105, R109, R110 and R118 name).
-/

namespace Sys2Proof.Machine

/-- The registers agree with one another (R14 to R17, R54, R88). -/
structure RegInv (s : State) : Prop where
  /-- a valid length is answered with `OK` and half the length (R16, R17) -/
  valid_result : s.len.toNat % 4 = 0 → s.status = 0 ∧ s.outLen.toNat = s.len.toNat / 2
  /-- an invalid length is answered with `InvalidInputLength` and 0, and no pass is made (R14, R95) -/
  invalid_result : s.len.toNat % 4 ≠ 0 → s.status = 1 ∧ s.outLen = 0 ∧ s.pix = 0 ∧ s.phase ≠ .run
  /-- `4 * PIX <= LEN` (R15) -/
  pix_le : 4 * s.pix.toNat ≤ s.len.toNat
  /-- a valid command responds only when every pixel is converted (R76, R37) -/
  resp_done : s.phase = .resp → s.len.toNat % 4 = 0 → 4 * s.pix.toNat = s.len.toNat
  /-- a transaction is in flight only inside a pixel step (R24) -/
  stage_in_run : s.stage ≠ .readRed → s.phase = .run ∧ 4 * s.pix.toNat < s.len.toNat
  /-- a second write is BigEndianSwappedMode's (R32) -/
  second_is_swapped : ∀ r g b, s.stage = .writeSecond r g b → s.mode = .bigEndianSwapped

/-- Both buffers are in canonical form and inside their spaces (R25). -/
structure MemInv (s : State) : Prop where
  src_wf : Memory.wf s.src = true
  src_within : Memory.within (2 ^ 31) s.src = true
  dst_wf : Memory.wf s.dst = true
  dst_within : Memory.within (2 ^ 30) s.dst = true

/-- The byte of channel `k` of the pixel in work. -/
def State.sourceByte (s : State) (k : Nat) : Byte := Memory.read s.src (4 * s.pix.toNat + k)

/-- The bytes read so far in the pixel step are the pixel's (R75). -/
def State.heldBytesRight (s : State) : Prop :=
  match s.stage with
  | .readRed => True
  | .readGreen r => r = s.sourceByte 0
  | .readBlue r g => r = s.sourceByte 0 ∧ g = s.sourceByte 1
  | .writeFirst r g b => r = s.sourceByte 0 ∧ g = s.sourceByte 1 ∧ b = s.sourceByte 2
  | .writeSecond r g b => r = s.sourceByte 0 ∧ g = s.sourceByte 1 ∧ b = s.sourceByte 2

/-- The two target bytes R78 gives for pixel `i` of the command in progress. -/
def State.expectedBytes (s : State) (i : Nat) : Byte × Byte :=
  pixelBytes s.mode s.nativeByteOrder (Memory.read s.src (4 * i)) (Memory.read s.src (4 * i + 1))
    (Memory.read s.src (4 * i + 2))

/-- `DST` holds pixel `i` as R78 gives it. -/
def State.pixelWritten (s : State) (i : Nat) : Prop :=
  (Memory.read s.dst (2 * i), Memory.read s.dst (2 * i + 1)) = s.expectedBytes i

/-- The pixels below `PIX` of the command in progress are converted (R36, R79), and the first byte of the next one while its
second write is due (R32). It says nothing of the bytes of `DST` behind those. -/
structure ConvInv (s : State) : Prop where
  held : s.heldBytesRight
  written : s.phase ≠ .idle → ∀ i, i < s.pix.toNat → s.pixelWritten i
  half_written : ∀ r g b, s.stage = .writeSecond r g b →
    Memory.read s.dst (2 * s.pix.toNat) = (s.expectedBytes s.pix.toNat).1

/-! ### The environment of a run -/

/-- An edge without reset and without host writes. -/
def Edge.undisturbed (e : Edge) : Prop := e.rst = false ∧ e.srcWrites = [] ∧ e.dstWrites = []

/-- An edge without reset at which the host keeps its hands off the buffers of a command of length `n` (R109, R110). What it
writes elsewhere, when it offers, when answers are given and when the response is taken is left open. -/
def Edge.spares (n : Nat) (e : Edge) : Prop :=
  e.rst = false ∧ (∀ c ∈ e.srcWrites, n ≤ c.1.toNat) ∧ ∀ c ∈ e.dstWrites, n / 2 ≤ c.1.toNat

/-- The state `s` before `k` edges in the environment `env`, which says for every edge of an endless run, counted from 0,
what is driven there. -/
def State.under (s : State) (env : Nat → Edge) (k : Nat) : State := { s with script := (List.range k).map env }

/-- The fairness R118 asks of the environment `env` on a run from `s`, up to the next response: wherever the block waits, what
it waits for comes at some later edge: (a) the acknowledge of a read, (b) the acknowledge of a write, (c) the host's
taking of the response, and before the handover the host's offer. No bound on the wait is asked for. -/
def State.answeredBy (s : State) (env : Nat → Edge) : Prop :=
  ∀ k t, runEdges k (s.under env k) = .next t → t.responses = s.responses →
    (t.srcRequest ≠ none → ∃ j, k ≤ j ∧ (env j).srcAck = true) ∧
      (t.dstRequest ≠ none → ∃ j, k ≤ j ∧ (env j).dstAck = true) ∧
      (t.phase = .resp → ∃ j, k ≤ j ∧ (env j).rspReady = true) ∧
      (t.phase = .idle → ∃ j, k ≤ j ∧ (env j).cmdHold = false)

/-! States that differ in one field, for claims that a step does not depend on it. -/

/-- The same state with other words offered by the host. -/
def State.withCommands (s : State) (cs : List CmdWord) : State := { s with commands := cs }

/-- The same state with another environment to come. -/
def State.withScript (s : State) (es : List Edge) : State := { s with script := es }

/-- The same state of an instance with another `NATIVE_BYTE_ORDER`. -/
def State.withOrder (s : State) (o : ByteOrder) : State := { s with nativeByteOrder := o }

/-- The same state with other values left in the registers and in flight (R21). -/
def State.withLeftovers (s : State) (m : Mode) (n : Len) (p : PixIndex) (c : StatusCode) (o : OutLen) (g : PixelStage) :
    State :=
  { s with mode := m, len := n, pix := p, status := c, outLen := o, stage := g }

end Sys2Proof.Machine
end

