-- ==== Sys2Proof/Certificates/Slice0/Obligations.lean ====
section
/-!
DEFINITION. The statements for the provers, each from the rules its docstring names.
-/

section

open Sys2Proof Sys2Proof.Machine

/-! ### Encoding -/

/-- Command words of 95_test_vectors.md section 2.6, bit by bit from R44 to R46. -/
def Obligations.DecodeSampleWords : Prop :=
  decodeTableWord 32 0x00000000 = some (.convNative 0) ∧
    decodeTableWord 32 0x80000004 = some (.convSwapped 4) ∧
    decodeTableWord 32 0x00000005 = some (.convNative 5) ∧
    decodeTableWord 32 0x7FFFFFFC = some (.convNative 2147483644) ∧
    decodeTableWord 32 0xFFFFFFFF = some (.convSwapped 2147483647)

/-- R47: exactly one row of the opcode map matches every word, and the word is that row's command, with `LEN` the low 31
bits (R46). -/
def Obligations.EveryWordMatchesOneRow : Prop :=
  ∀ w : CmdWord,
    (∃ r ∈ opcodeRows, r.covers w = true ∧ ∀ r' ∈ opcodeRows, r'.covers w = true → r' = r) ∧
      ∀ r ∈ opcodeRows, r.covers w = true →
        (decodeWord w).mode = r.mode ∧ (decodeWord w).len.toNat = w.toNat % 2 ^ 31

/-- Every command is read back from its word, with every value of `LEN` (R44, R48). -/
def Obligations.DecodeOfEncode : Prop :=
  ∀ i : Instr, i.wellFormed = true → decodeTableWord 32 (encode i).toNat = some i ∧ decodeWord (encode i) = i

/-- R48: all 2^32 words decode to one of the two commands, and no two words to the same one. -/
def Obligations.EncodeOfDecode : Prop :=
  ∀ w : CmdWord, (decodeWord w).wellFormed = true ∧ encode (decodeWord w) = w ∧
    decodeTableWord 32 w.toNat = some (decodeWord w)

/-- R52: the word of `MNEMONIC len` is `(MODE << 31) | len`, and a length that does not fit `LEN` names no command; the two
lines R52 writes out. The single blank between mnemonic and number is the model's choice (log 15). -/
def Obligations.AssembledWord : Prop :=
  (∀ (line : List Char) (c : CommandLine), parseLine line = some c →
    (c.len < 2 ^ 31 → ∃ w, assembleLine line = some w ∧ w.toNat = 2 ^ 31 * c.mode.bit.toNat + c.len) ∧
      (2 ^ 31 ≤ c.len → assembleLine line = none)) ∧
    assembleLine ['C', 'O', 'N', 'V', '_', 'N', 'A', 'T', 'I', 'V', 'E', ' ', '1', '6'] = some 0x00000010#32 ∧
    assembleLine ['C', 'O', 'N', 'V', '_', 'S', 'W', 'A', 'P', 'P', 'E', 'D', ' ', '1', '6'] = some 0x80000010#32

/-! ### The datapath -/

/-- R56, R57, R58, R59: the high-order bits are kept, the low-order bits are discarded and never rounded, and each channel
is monotonic and depends on its own input only. -/
def Obligations.TruncationLaw : Prop :=
  ∀ r g b : Byte,
    (trunc r g b).r5.toNat = r.toNat / 8 ∧ (trunc r g b).g6.toNat = g.toNat / 4 ∧
      (trunc r g b).b5.toNat = b.toNat / 8 ∧
      trunc (r &&& 0xF8#8) (g &&& 0xFC#8) (b &&& 0xF8#8) = trunc r g b ∧
      ∀ r' g' b' : Byte,
        (r.toNat ≤ r'.toNat → (trunc r g b).r5.toNat ≤ (trunc r' g' b').r5.toNat) ∧
          (g.toNat ≤ g'.toNat → (trunc r g b).g6.toNat ≤ (trunc r' g' b').g6.toNat) ∧
          (b.toNat ≤ b'.toNat → (trunc r g b).b5.toNat ≤ (trunc r' g' b').b5.toNat)

/-- R61 and R62: the two packing formulas, with shifts at 16 bits. -/
def Obligations.PackerFormulas : Prop :=
  ∀ c : Channels,
    packNative c = (c.r5.setWidth 16 <<< 11) ||| (c.g6.setWidth 16 <<< 5) ||| c.b5.setWidth 16 ∧
      packSwapped c = (c.b5.setWidth 16 <<< 11) ||| (c.g6.setWidth 16 <<< 5) ||| c.r5.setWidth 16

/-- R63: the fields of a packed pixel read back, and each packer is a bijection. -/
def Obligations.PackersLoseNothing : Prop :=
  (∀ c : Channels,
    (packNative c).extractLsb' 11 5 = c.r5 ∧ (packNative c).extractLsb' 5 6 = c.g6 ∧
      (packNative c).extractLsb' 0 5 = c.b5 ∧ (packSwapped c).extractLsb' 11 5 = c.b5 ∧
      (packSwapped c).extractLsb' 5 6 = c.g6 ∧ (packSwapped c).extractLsb' 0 5 = c.r5) ∧
    ∀ v : Value16, (∃ c, packNative c = v ∧ ∀ c', packNative c' = v → c' = c) ∧
      ∃ c, packSwapped c = v ∧ ∀ c', packSwapped c' = v → c' = c

/-- R64 and R65: one packer is the other with red and blue exchanged, and the two agree on a pixel exactly when the
truncated red and blue agree. -/
def Obligations.PackersAgreeOnEqualRedBlue : Prop :=
  (∀ c : Channels, packSwapped c = packNative { r5 := c.b5, g6 := c.g6, b5 := c.r5 }) ∧
    ∀ r g b : Byte, packNative (trunc r g b) = packSwapped (trunc r g b) ↔ r >>> 3 = b >>> 3

/-- R67, R68, R70: the two orders byte by byte, that nothing is lost, and that one order is the other exchanged. -/
def Obligations.SerializerOrders : Prop :=
  ∀ v : Value16,
    (serialize v .big).1 = ((v >>> 8) &&& 0xFF#16).setWidth 8 ∧ (serialize v .big).2 = (v &&& 0xFF#16).setWidth 8 ∧
      (serialize v .little).1 = v.setWidth 8 ∧ (serialize v .little).2 = (v >>> 8).setWidth 8 ∧
      v = (serialize v .big).1 ++ (serialize v .big).2 ∧ v = (serialize v .little).2 ++ (serialize v .little).1 ∧
      serialize v .little = ((serialize v .big).2, (serialize v .big).1)

/-! ### The access primitives and the ports -/

/-- R29: which byte of a 16-bit unit goes to which offset, in both orders, the byte a 1-byte write stores, and that nothing
else changes. -/
def Obligations.WritePrimitives : Prop :=
  ∀ (m : Memory) (a : DstAddr) (v : Value16) (b : Byte),
    Memory.read (memWriteUnit .little m a v) a.toNat = v.setWidth 8 ∧
      Memory.read (memWriteUnit .little m a v) (a.toNat + 1) = (v >>> 8).setWidth 8 ∧
      Memory.read (memWriteUnit .big m a v) a.toNat = (v >>> 8).setWidth 8 ∧
      Memory.read (memWriteUnit .big m a v) (a.toNat + 1) = v.setWidth 8 ∧
      (∀ (o : ByteOrder) (x : Nat), x ≠ a.toNat → x ≠ a.toNat + 1 →
        Memory.read (memWriteUnit o m a v) x = Memory.read m x) ∧
      Memory.read (memWriteByte m a b) a.toNat = b ∧
      ∀ x, x ≠ a.toNat → Memory.read (memWriteByte m a b) x = Memory.read m x

/-- R42: the three shapes of a target write, their address, byte enables and disabled lanes, and that the lanes store what
the primitives of R29 say. -/
def Obligations.TargetWriteShapes : Prop :=
  ∀ (o : ByteOrder) (pix : PixIndex) (r g b : Byte) (m : Memory),
    (nativeWrite o pix r g b).addr.toNat = 2 * pix.toNat ∧ (nativeWrite o pix r g b).be = 0b11#2 ∧
      applyLanes m (nativeWrite o pix r g b) = memWriteUnit o m (targetOffset pix) (packNative (trunc r g b)) ∧
      (swappedFirstWrite pix r g b).addr.toNat = 2 * pix.toNat ∧ (swappedFirstWrite pix r g b).be = 0b01#2 ∧
      (swappedFirstWrite pix r g b).wdata.extractLsb' 8 8 = 0#8 ∧
      applyLanes m (swappedFirstWrite pix r g b) =
        memWriteByte m (targetOffset pix) (serialize (packSwapped (trunc r g b)) .big).1 ∧
      (swappedSecondWrite pix r g b).addr.toNat = 2 * pix.toNat ∧ (swappedSecondWrite pix r g b).be = 0b10#2 ∧
      (swappedSecondWrite pix r g b).wdata.extractLsb' 0 8 = 0#8 ∧
      applyLanes m (swappedSecondWrite pix r g b) =
        memWriteByte m (targetOffset pix + 1) (serialize (packSwapped (trunc r g b)) .big).2

/-- R31, R34, R36: at most one port has a request, only in phase `RUN`; a read is of `4 * PIX + k` with `k < 3` and below
`LEN`; a write starts at the even offset `2 * PIX` and ends below `LEN / 2`. -/
def Obligations.RequestsInBounds : Prop :=
  ∀ s : State, RegInv s →
    (s.phase ≠ .run → s.srcRequest = none ∧ s.dstRequest = none) ∧
      (s.srcRequest = none ∨ s.dstRequest = none) ∧
      (∀ a, s.srcRequest = some a →
        (∃ k, k < 3 ∧ a.toNat = 4 * s.pix.toNat + k) ∧ a.toNat < s.len.toNat) ∧
      ∀ w, s.dstRequest = some w →
        w.addr.toNat = 2 * s.pix.toNat ∧ w.addr.toNat + 1 < s.len.toNat / 2 ∧ w.be ≠ 0

/-- R41 and R42: a request that is not acknowledged is held, with its address, byte enables and data, unless `rst` rises. -/
def Obligations.RequestHeldUntilAcknowledged : Prop :=
  ∀ s t : State, s.edge.rst = false → step s = .next t →
    (∀ a, s.srcRequest = some a → s.edge.srcAck = false → t.srcRequest = some a) ∧
      ∀ w, s.dstRequest = some w → s.edge.dstAck = false → t.dstRequest = some w

/-- R116: an acknowledge without a request is ignored. -/
def Obligations.AcknowledgeWithoutRequestIgnored : Prop :=
  ∀ (s : State) (e : Edge) (rest : List Edge) (x : Bool), s.script = e :: rest →
    (s.srcRequest = none → step (s.withScript ({ e with srcAck := x } :: rest)) = step s) ∧
      (s.dstRequest = none → step (s.withScript ({ e with dstAck := x } :: rest)) = step s)

/-! ### Reset -/

/-- R22: the registers and the handshake outputs right after reset. -/
def Obligations.ResetValues : Prop :=
  State.reset.phase = .idle ∧ phaseCode State.reset.phase = 0 ∧
    State.reset.mode = .packedNative ∧ State.reset.len = 0 ∧ State.reset.pix = 0 ∧
    State.reset.status = 0 ∧ State.reset.outLen = 0 ∧ State.reset.cmdReady = true ∧ State.reset.rspValid = false ∧
    State.reset.srcReq = false ∧ State.reset.dstReq = false

/-- The invariants hold right after reset. -/
def Obligations.ResetMeetsInvariants : Prop :=
  RegInv State.reset ∧ MemInv State.reset ∧ ConvInv State.reset

/-- R105: at every edge with `rst` = 1 the outputs are low, no transaction is performed, and the registers take the values
of R22 from every state, whatever step was due; the buffers and the host's lists are not touched by it; the block is then
ready as soon as `rst` is low. -/
def Obligations.ResetWinsOverEveryStep : Prop :=
  ∀ s : State, s.edge.rst = true →
    s.cmdReady = false ∧ s.rspValid = false ∧ s.srcReq = false ∧ s.dstReq = false ∧ s.portEvent = none ∧
      ∃ t, step s = .next t ∧ t.phase = .idle ∧ t.mode = .packedNative ∧ t.len = 0 ∧ t.pix = 0 ∧ t.status = 0 ∧
        t.outLen = 0 ∧ t.srcRequest = none ∧ t.dstRequest = none ∧
        (∀ a, (∀ c ∈ s.edge.srcWrites, c.1.toNat ≠ a) → Memory.read t.src a = Memory.read s.src a) ∧
        (∀ a, (∀ c ∈ s.edge.dstWrites, c.1.toNat ≠ a) → Memory.read t.dst a = Memory.read s.dst a) ∧
        t.commands = s.commands ∧ t.responses = s.responses ∧ t.nativeByteOrder = s.nativeByteOrder ∧
        (t.edge.rst = false → t.cmdReady = true)

/-! ### The steps of a command -/

/-- R72 and R95: the accept writes `MODE`, `LEN` and `PIX` whatever the length; a valid length starts the pass with
`STATUS` 0 and `OUT_LEN` = `LEN / 2`; an invalid one takes the error entry, offers `0x40000000` and reaches neither port.
Nothing else changes but the model's own fields: the host's word is taken (log 6) and no transaction is in flight (log 2). -/
def Obligations.AcceptStep : Prop :=
  ∀ (i : Instr) (s : State), s.phase = .idle →
    s.portEvent = none ∧
      (i.len.toNat % 4 = 0 →
        exec i s = .next
          { s with phase := .run, mode := i.mode, len := i.len, pix := 0, status := 0,
                   outLen := BitVec.ofNat 30 (i.len.toNat / 2), stage := .readRed, commands := s.commands.tail }) ∧
      (i.len.toNat % 4 ≠ 0 →
        ∃ t, exec i s = .next t ∧ t.rspWord = 0x40000000#32 ∧
          t = { s with phase := .resp, mode := i.mode, len := i.len, pix := 0, status := 1, outLen := 0,
                       stage := .readRed, commands := s.commands.tail })

/-- The model's grain is one transaction a step (log 4).
R32, R36 and R41 on the three reads of a pixel, for both commands: an acknowledged read takes the byte of `SRC` at
`4 * PIX + k` and changes nothing else. -/
def Obligations.AcknowledgedReads : Prop :=
  ∀ (i : Instr) (s : State), s.phase = .run → 4 * s.pix.toNat < s.len.toNat → s.edge.srcAck = true →
    (s.stage = .readRed →
      exec i s = .next { s with stage := .readGreen (Memory.read s.src (4 * s.pix.toNat)) }) ∧
      (∀ r, s.stage = .readGreen r →
        exec i s = .next { s with stage := .readBlue r (Memory.read s.src (4 * s.pix.toNat + 1)) }) ∧
      ∀ r g, s.stage = .readBlue r g →
        exec i s = .next { s with stage := .writeFirst r g (Memory.read s.src (4 * s.pix.toNat + 2)) }

/-- The model's grain is one transaction a step (log 4).
R73 with the formula of R61 and the byte orders of R29: the acknowledged write of a native pixel stores the packed value
at `2 * PIX` and `2 * PIX + 1` in the instance's byte order, advances `PIX`, and changes nothing else. -/
def Obligations.NativePixelWrite : Prop :=
  ∀ (len : Len) (s : State) (r g b : Byte), s.phase = .run → 4 * s.pix.toNat < s.len.toNat →
    s.stage = .writeFirst r g b → s.edge.dstAck = true →
    ∃ t, exec (.convNative len) s = .next t ∧
      t = { s with dst := t.dst, pix := s.pix + 1, stage := .readRed } ∧
      (∀ v : Value16,
        v = ((b >>> 3).setWidth 16) ||| ((g >>> 2).setWidth 16 <<< 5) ||| ((r >>> 3).setWidth 16 <<< 11) →
        (s.nativeByteOrder = .little →
          Memory.read t.dst (2 * s.pix.toNat) = v.setWidth 8 ∧
            Memory.read t.dst (2 * s.pix.toNat + 1) = (v >>> 8).setWidth 8) ∧
          (s.nativeByteOrder = .big →
            Memory.read t.dst (2 * s.pix.toNat) = (v >>> 8).setWidth 8 ∧
              Memory.read t.dst (2 * s.pix.toNat + 1) = v.setWidth 8)) ∧
      ∀ a, a ≠ 2 * s.pix.toNat → a ≠ 2 * s.pix.toNat + 1 → Memory.read t.dst a = Memory.read s.dst a

/-- The model's grain is one transaction a step (log 4).
R74 with the formula of R62: the first write of a swapped pixel stores the most significant byte at `2 * PIX`, and
changes nothing else but that the second write is due. -/
def Obligations.SwappedFirstByteWrite : Prop :=
  ∀ (len : Len) (s : State) (r g b : Byte), s.phase = .run → 4 * s.pix.toNat < s.len.toNat →
    s.stage = .writeFirst r g b → s.edge.dstAck = true →
    ∃ t, exec (.convSwapped len) s = .next t ∧
      t = { s with dst := t.dst, stage := .writeSecond r g b } ∧
      (∀ v : Value16,
        v = ((b >>> 3).setWidth 16 <<< 11) ||| ((g >>> 2).setWidth 16 <<< 5) ||| ((r >>> 3).setWidth 16) →
        Memory.read t.dst (2 * s.pix.toNat) = (v >>> 8).setWidth 8) ∧
      ∀ a, a ≠ 2 * s.pix.toNat → Memory.read t.dst a = Memory.read s.dst a

/-- The model's grain is one transaction a step (log 4).
R74 with the formula of R62: the second write of a swapped pixel stores the least significant byte at `2 * PIX + 1`,
advances `PIX`, and changes nothing else. -/
def Obligations.SwappedSecondByteWrite : Prop :=
  ∀ (len : Len) (s : State) (r g b : Byte), s.phase = .run → 4 * s.pix.toNat < s.len.toNat →
    s.stage = .writeSecond r g b → s.edge.dstAck = true →
    ∃ t, exec (.convSwapped len) s = .next t ∧
      t = { s with dst := t.dst, pix := s.pix + 1, stage := .readRed } ∧
      (∀ v : Value16,
        v = ((b >>> 3).setWidth 16 <<< 11) ||| ((g >>> 2).setWidth 16 <<< 5) ||| ((r >>> 3).setWidth 16) →
        Memory.read t.dst (2 * s.pix.toNat + 1) = v.setWidth 8) ∧
      ∀ a, a ≠ 2 * s.pix.toNat + 1 → Memory.read t.dst a = Memory.read s.dst a

/-- R88: without the acknowledge it waits for, a pixel step changes nothing. -/
def Obligations.UnacknowledgedTransactionWaits : Prop :=
  ∀ (i : Instr) (s : State), s.phase = .run → 4 * s.pix.toNat < s.len.toNat →
    (s.edge.srcAck = false →
      (s.stage = .readRed ∨ (∃ r, s.stage = .readGreen r) ∨ ∃ r g, s.stage = .readBlue r g) → exec i s = .next s) ∧
      (s.edge.dstAck = false →
        ((∃ r g b, s.stage = .writeFirst r g b) ∨
          (i.mode = .bigEndianSwapped ∧ ∃ r g b, s.stage = .writeSecond r g b)) → exec i s = .next s)

/-- R76: when no pixel is left the command enters `RESP`, touches no port and changes no other register. -/
def Obligations.FinishStep : Prop :=
  ∀ (i : Instr) (s : State), s.phase = .run → 4 * s.pix.toNat = s.len.toNat →
    exec i s = .next { s with phase := .resp } ∧ s.portEvent = none

/-- R77: when the host takes the response, the word `{STATUS, OUT_LEN}` is handed over and the block is idle; no other
register changes; until then nothing changes. -/
def Obligations.RespondStep : Prop :=
  ∀ (i : Instr) (s : State), s.phase = .resp →
    (s.edge.rspReady = true →
      exec i s = .next { s with phase := .idle, responses := s.responses ++ [s.status ++ s.outLen] }) ∧
      (s.edge.rspReady = false → exec i s = .next s)

/-- The model's choice (log 9) where the rules give no step: a command faults, by name, in `RUN` with `4 * PIX > LEN`, which
R88 says never happens; so does a native one where a second write would be due, since R32 gives a native pixel one write.
The second clause also speaks of a native command at a state that only a swapped one reaches. -/
def Obligations.FaultsWhereNoStepIsEnabled : Prop :=
  (∀ (i : Instr) (s : State), s.phase = .run → s.len.toNat < 4 * s.pix.toNat → exec i s = .fault .noStepEnabled) ∧
    ∀ (len : Len) (s : State) (r g b : Byte), s.phase = .run → 4 * s.pix.toNat < s.len.toNat →
      s.stage = .writeSecond r g b → exec (.convNative len) s = .fault .noStepEnabled

/-- R75: the transactions of a pixel are together the step `pixel` as one transition. With every request answered at once
they take four edges of a native command and five of a swapped one: one transaction an edge is the model's own grain (log 4),
R117 fixes no number. -/
def Obligations.TransactionsMakeThePixelStep : Prop :=
  ∀ s : State, s.phase = .run → 4 * s.pix.toNat < s.len.toNat → s.stage = .readRed → s.script = [] → s.steady = .ready →
    (s.mode = .packedNative → runEdges 4 s = .next (pixelStep s)) ∧
      (s.mode = .bigEndianSwapped → runEdges 5 s = .next (pixelStep s))

/-! ### The machine's step -/

/-- R53: a command offered to an idle block at an edge without reset is run, from the word on the channel. That the host's own
writes of that edge are not refused and land after the accept, where the next entry of the environment comes up (`endEdge`),
is the model's choice (log 8). -/
def Obligations.StepRunsOfferedCommand : Prop :=
  ∀ (s : State) (w : CmdWord) (rest : List CmdWord), s.phase = .idle → s.commands = w :: rest →
    s.edge.rst = false → s.edge.cmdHold = false → step s = mapNext (endEdge s.edge) (exec (decodeWord w) s)

/-- R88 and R39: in phases `RUN` and `RESP` the step is that of the command whose word was sampled, whatever the host offers
meanwhile. That this command is the one of `MODE` and `LEN` is read from R13 and R14 (log 7, DEDUCED); that a host which
breaks R109 or R110 is refused first, the premise on `hostMisuse`, is log 8. -/
def Obligations.StepRunsCommandInProgress : Prop :=
  ∀ (s : State) (cs : List CmdWord), s.phase ≠ .idle → s.edge.rst = false → hostMisuse s = none →
    step s = mapNext (endEdge s.edge) (exec (.ofModeLen s.mode s.len) s) ∧
      step (s.withCommands cs) = mapNext (fun t => t.withCommands cs) (step s)

/-- R53: an idle block that is offered no command waits: nothing changes but what the host writes. -/
def Obligations.IdleBlockWaits : Prop :=
  ∀ s : State, s.phase = .idle → s.edge.rst = false → s.cmdValid = false → step s = .next (endEdge s.edge s)

/-- The step after `withFetchWord` takes the word and runs it, from every state (log 6). -/
def Obligations.PlacedWordRunsNext : Prop :=
  ∀ (s : State) (w : CmdWord), ∃ t, step (s.withFetchWord 32 w.toNat) = .next t ∧ t.mode = (decodeWord w).mode ∧
    t.len = (decodeWord w).len ∧ t.phase ≠ .idle ∧ t.commands = s.commands ∧ t.script = s.script

/-- M1 and M2 of 93_implementation_defined.md, on R109 and R110: a host that changes a byte of `SRC` below `LEN`, or writes a
byte of `DST` below `LEN / 2`, between handover and response is given no meaning.
That the model refuses it by name is log 8. -/
def Obligations.HostProhibitionsRefused : Prop :=
  ∀ s : State, s.phase ≠ .idle → s.edge.rst = false →
    ((∃ c ∈ s.edge.srcWrites, c.1.toNat < s.len.toNat) → step s = .refused .sourceChanged) ∧
      ((∀ c ∈ s.edge.srcWrites, s.len.toNat ≤ c.1.toNat) →
        (∃ c ∈ s.edge.dstWrites, c.1.toNat < s.len.toNat / 2) → step s = .refused .targetTouched)

/-- R12: the transitions of `PHASE` are exactly those listed there. -/
def Obligations.PhaseTransitions : Prop :=
  ∀ s t : State, step s = .next t → t.phase ≠ s.phase →
    (s.edge.rst = true ∧ t.phase = .idle) ∨
      (s.edge.rst = false ∧
        ((s.phase = .idle ∧ s.cmdValid = true ∧ t.phase = .run ∧ t.len.toNat % 4 = 0) ∨
          (s.phase = .idle ∧ s.cmdValid = true ∧ t.phase = .resp ∧ t.len.toNat % 4 ≠ 0) ∨
          (s.phase = .run ∧ t.phase = .resp ∧ 4 * s.pix.toNat = s.len.toNat) ∨
          (s.phase = .resp ∧ t.phase = .idle ∧ s.edge.rspReady = true)))

/-- R118: there is no timeout: while the environment neither resets nor answers, a block that waits stays as it is, for any
number of edges. -/
def Obligations.NoTimeout : Prop :=
  ∀ (s : State) (n : Nat) (rest : List Edge) (e : Edge),
    e.undisturbed → e.cmdHold = true → e.rspReady = false → e.srcAck = false → e.dstAck = false →
    RegInv s → (s.phase = .run → 4 * s.pix.toNat < s.len.toNat) → s.script = List.replicate n e ++ rest →
    runEdges n s = .next (s.withScript rest)

/-! ### Invariants -/

/-- Every step keeps the agreement of the registers. -/
def Obligations.StepKeepsRegInv : Prop := ∀ s t : State, RegInv s → step s = .next t → RegInv t

/-- Every step keeps both buffers canonical and inside their spaces. -/
def Obligations.StepKeepsMemInv : Prop := ∀ s t : State, MemInv s → step s = .next t → MemInv t

/-- R79 as an invariant, under every behaviour of the environment that is not refused, resets and stalls among them: the
pixels below `PIX` of the command in progress are converted. -/
def Obligations.StepKeepsConvInv : Prop :=
  ∀ s t : State, RegInv s → ConvInv s → step s = .next t → ConvInv t

/-- R92: from a state that keeps the register invariant, a step goes on, whatever the environment does within its
prohibitions; nothing faults. -/
def Obligations.NothingElseFails : Prop :=
  ∀ s : State, RegInv s → (hostMisuse s = none → ∃ t, step s = .next t) ∧ ∀ f, step s ≠ .fault f

/-- R54: the response words the block can produce. -/
def Obligations.ResponseWords : Prop :=
  ∀ s : State, RegInv s → s.rspValid = true →
    (s.len.toNat % 4 ≠ 0 ∧ s.rspWord = 0x40000000#32) ∨
      (s.len.toNat % 4 = 0 ∧ s.rspWord.toNat = s.len.toNat / 2 ∧ s.rspWord.toNat ≤ 0x3FFFFFFE ∧ s.rspWord.toNat % 2 = 0)

/-- R30 (d), R34, R38: a step changes neither the instance's byte order nor `SRC`, nor any byte of `DST` at or above
`LEN / 2`, but for the host's own writes; and a block with no command in progress writes no byte of `DST`. -/
def Obligations.StepFrame : Prop :=
  ∀ s t : State, RegInv s → step s = .next t →
    t.nativeByteOrder = s.nativeByteOrder ∧
      (∀ a, (∀ c ∈ s.edge.srcWrites, c.1.toNat ≠ a) → Memory.read t.src a = Memory.read s.src a) ∧
      (∀ a, (∀ c ∈ s.edge.dstWrites, c.1.toNat ≠ a) → s.len.toNat / 2 ≤ a ∨ s.phase ≠ .run →
        Memory.read t.dst a = Memory.read s.dst a)

/-! ### What a command does not depend on -/

/-- R21: a command does not see what an earlier one left in the registers. -/
def Obligations.NoCarryOverBetweenCommands : Prop :=
  ∀ (i : Instr) (s : State) (m : Mode) (n : Len) (p : PixIndex) (c : StatusCode) (o : OutLen) (g : PixelStage),
    s.phase = .idle →
    exec i (s.withLeftovers m n p c o g) = exec i s

/-- R60: no step of a command depends on the fourth byte of a pixel. -/
def Obligations.PaddingByteIgnored : Prop :=
  ∀ (i : Instr) (s : State) (m : Memory), (∀ a, a % 4 ≠ 3 → Memory.read m a = Memory.read s.src a) →
    exec i (s.setSrc m) = mapNext (fun t => t.setSrc m) (exec i s)

/-- R74 and R69: the instance's byte order is no operand of `CONV_SWAPPED`. -/
def Obligations.SwappedIgnoresNativeOrder : Prop :=
  ∀ (len : Len) (s : State) (o : ByteOrder),
    exec (.convSwapped len) (s.withOrder o) = mapNext (fun t => t.withOrder o) (exec (.convSwapped len) s)

/-! ### What a whole command computes -/

/-- R78 and R80: the reference function is total, its result has half the length, and pixel `i` of it is `ser` of the packed
channels of pixel `i` of the source, in the order R69 gives. -/
def Obligations.ReferenceFunction : Prop :=
  ∀ (m : Mode) (o : ByteOrder) (src : List Byte),
    (src.length % 4 ≠ 0 → conv m o src = .error .invalidInputLength) ∧
      (src.length % 4 = 0 → ∃ dst, conv m o src = .ok dst ∧ dst.length = src.length / 2 ∧
        ∀ i, i < src.length / 4 → ∀ r g b, src[4 * i]? = some r → src[4 * i + 1]? = some g → src[4 * i + 2]? = some b →
          (m = .packedNative →
            dst[2 * i]? = some (serialize (packNative (trunc r g b)) o).1 ∧
              dst[2 * i + 1]? = some (serialize (packNative (trunc r g b)) o).2) ∧
            (m = .bigEndianSwapped →
              dst[2 * i]? = some (serialize (packSwapped (trunc r g b)) .big).1 ∧
                dst[2 * i + 1]? = some (serialize (packSwapped (trunc r g b)) .big).2))

/-- R82: converting a buffer in two parts, cut at a pixel, gives the bytes of the whole. -/
def Obligations.ConversionIsLocal : Prop :=
  ∀ (m : Mode) (o : ByteOrder) (a b : List Byte) (da db : List Byte), conv m o a = .ok da → conv m o b = .ok db →
    conv m o (a ++ b) = .ok (da ++ db)

/-- R79 and R87: the machine computes the reference function. An idle block is handed the word `w` of a host that keeps its
hands off the command's buffers (R109, R110) and does not reset. In every environment that meets the premises (a) to (c) of
R118, however long it stalls (`answeredBy`; nothing rests on the shape of `State.script`, log 5), the run ends with the block
idle and one response more taken. On `OK` the bytes of `DST` below `LEN / 2` are the reference function's; every other byte,
on the error every byte, and every byte of `SRC` is as before but for the host's own writes. -/
def Obligations.CommandComputesConv : Prop :=
  ∀ (s : State) (w : CmdWord) (rest : List CmdWord) (env : Nat → Edge), s.phase = .idle → s.commands = w :: rest →
    (∀ j, (env j).spares (decodeWord w).len.toNat) → s.answeredBy env →
    ∃ k t, runEdges k (s.under env k) = .next t ∧ t.phase = .idle ∧ t.commands = rest ∧
      (∀ a, (∀ j, ∀ c ∈ (env j).srcWrites, c.1.toNat ≠ a) → Memory.read t.src a = Memory.read s.src a) ∧
      ((∀ j, (env j).srcWrites = []) → t.src = s.src) ∧
      (∀ dst, conv (decodeWord w).mode s.nativeByteOrder (Memory.bytes s.src (decodeWord w).len.toNat) = .ok dst →
        t.responses = s.responses ++ [BitVec.ofNat 32 ((decodeWord w).len.toNat / 2)] ∧
          dst.length = (decodeWord w).len.toNat / 2 ∧
          (∀ a, a < (decodeWord w).len.toNat / 2 → dst[a]? = some (Memory.read t.dst a)) ∧
          ∀ a, (decodeWord w).len.toNat / 2 ≤ a → (∀ j, ∀ c ∈ (env j).dstWrites, c.1.toNat ≠ a) →
            Memory.read t.dst a = Memory.read s.dst a) ∧
      ∀ e, conv (decodeWord w).mode s.nativeByteOrder (Memory.bytes s.src (decodeWord w).len.toNat) = .error e →
        e = .invalidInputLength ∧ t.responses = s.responses ++ [0x40000000#32] ∧
          (∀ a, (∀ j, ∀ c ∈ (env j).dstWrites, c.1.toNat ≠ a) → Memory.read t.dst a = Memory.read s.dst a) ∧
          ((∀ j, (env j).dstWrites = []) → t.dst = s.dst)

/-- R87: a command with a valid length takes exactly `LEN / 4 + 3` converter steps, in the order `accept`, `pixel` for each
pixel, `finish`, `respond`; one with an invalid length takes `accept`, `respond`. That the run ends has the premises (a) to
(c) of R118 (`answeredBy`; not log 5), and a host that neither resets nor breaks R109 and R110. -/
def Obligations.CommandStepCount : Prop :=
  ∀ (s : State) (w : CmdWord) (rest : List CmdWord) (env : Nat → Edge), s.phase = .idle → s.commands = w :: rest →
    (∀ j, (env j).spares (decodeWord w).len.toNat) → s.answeredBy env →
    ∃ k t, runEdges k (s.under env k) = .next t ∧ t.phase = .idle ∧ t.responses.length = s.responses.length + 1 ∧
      ((decodeWord w).len.toNat % 4 = 0 →
        stepsTaken k (s.under env k) =
            .accept :: List.replicate ((decodeWord w).len.toNat / 4) .pixel ++ [.finish, .respond] ∧
          (stepsTaken k (s.under env k)).length = (decodeWord w).len.toNat / 4 + 3) ∧
      ((decodeWord w).len.toNat % 4 ≠ 0 → stepsTaken k (s.under env k) = [.accept, .respond])

/-- R36, R32 and R34: the port transactions of a command, in program order, are the three reads and the one or two writes of
each pixel in ascending order, and no others; an invalid length issues none. That the run ends has the premises (a) to (c)
of R118 (`answeredBy`; not log 5), and a host that neither resets nor breaks R109 and R110. -/
def Obligations.CommandPortTrace : Prop :=
  ∀ (s : State) (w : CmdWord) (rest : List CmdWord) (env : Nat → Edge), s.phase = .idle → s.commands = w :: rest →
    (∀ j, (env j).spares (decodeWord w).len.toNat) → s.answeredBy env →
    ∃ k t, runEdges k (s.under env k) = .next t ∧ t.phase = .idle ∧ t.responses.length = s.responses.length + 1 ∧
      ((decodeWord w).len.toNat % 4 = 0 →
        trace k (s.under env k) =
          commandTrace (decodeWord w).mode s.nativeByteOrder s.src ((decodeWord w).len.toNat / 4)) ∧
      ((decodeWord w).len.toNat % 4 ≠ 0 → trace k (s.under env k) = [])

/-- R81: the words `0x00000000` and `0x80000000` run `accept`, `finish`, `respond`, issue no port transaction, and answer
`0x00000000`; nothing is written but what the host writes. The premises are those R118 asks of the host, that it offers the
word and takes the response in the end (`answeredBy`; not log 5), and that `rst` stays low. -/
def Obligations.EmptyCommand : Prop :=
  ∀ (s : State) (w : CmdWord) (rest : List CmdWord) (env : Nat → Edge), w = 0x00000000#32 ∨ w = 0x80000000#32 →
    s.phase = .idle → s.commands = w :: rest → (∀ j, (env j).rst = false) → s.answeredBy env →
    ∃ k t, runEdges k (s.under env k) = .next t ∧ stepsTaken k (s.under env k) = [.accept, .finish, .respond] ∧
      trace k (s.under env k) = [] ∧ t.phase = .idle ∧ t.responses = s.responses ++ [0x00000000#32] ∧
      t.commands = rest ∧
      (∀ a, (∀ j, ∀ c ∈ (env j).srcWrites, c.1.toNat ≠ a) → Memory.read t.src a = Memory.read s.src a) ∧
      (∀ a, (∀ j, ∀ c ∈ (env j).dstWrites, c.1.toNat ≠ a) → Memory.read t.dst a = Memory.read s.dst a) ∧
      ((∀ j, (env j).srcWrites = []) → t.src = s.src) ∧ ((∀ j, (env j).dstWrites = []) → t.dst = s.dst)

/-- R107 and R36: until its response is taken, a command has written a prefix of its target bytes, and every other byte of
`DST` keeps its old value but for the host's own writes. The length of the prefix is the number of bytes acknowledged so
far, at most `LEN / 2`. A reset at that point leaves it so and hands over no response. The run may stall for ever (no premise
of R118).
That this number is 0 before the handover, then `2 * PIX`, and 1 more between the two writes of a swapped pixel
(`targetBytesWritten`) is no rule of the spec (C11 of 90_conflicts.md withdrew it): it holds because `PIX` advances at the edge
of a pixel's last acknowledge, which is the model's choice (log 4). -/
def Obligations.UnfinishedTargetIsPrefix : Prop :=
  ∀ (s t : State) (w : CmdWord) (rest : List CmdWord) (env : Nat → Edge) (k : Nat), s.phase = .idle →
    s.commands = w :: rest → (decodeWord w).len.toNat % 4 = 0 → (∀ j, (env j).spares (decodeWord w).len.toNat) →
    runEdges k (s.under env k) = .next t → t.responses = s.responses →
    t.targetBytesWritten ≤ (decodeWord w).len.toNat / 2 ∧
      t.targetBytesWritten = bytesAcknowledged (trace k (s.under env k)) ∧
      (∀ a, a < t.targetBytesWritten →
        (convPixels (decodeWord w).mode s.nativeByteOrder (Memory.bytes s.src (decodeWord w).len.toNat))[a]? =
          some (Memory.read t.dst a)) ∧
      (∀ a, t.targetBytesWritten ≤ a → (∀ j, ∀ c ∈ (env j).dstWrites, c.1.toNat ≠ a) →
        Memory.read t.dst a = Memory.read s.dst a) ∧
      ∀ e : Edge, e.rst = true → e.dstWrites = [] →
        ∃ u, step (t.withScript [e]) = .next u ∧ u.phase = .idle ∧ u.dst = t.dst ∧ u.responses = t.responses

/-! ### What the environment owes -/

/-- R118: a command in progress ends if and only if the environment eventually acknowledges every read and every write and
takes the response, for every environment without reset whose host keeps R109 and R110. -/
def Obligations.CommandEndsIffAnswered : Prop :=
  ∀ (s : State) (env : Nat → Edge), RegInv s → s.phase ≠ .idle → (∀ j, (env j).spares s.len.toNat) →
    ((∃ k t, runEdges k (s.under env k) = .next t ∧ t.phase = .idle) ↔ s.answeredBy env)

/-- R118 and R88: an environment that never supplies what the block waits for leaves it there for ever, after any number of
edges: with `src_req`, `dst_req` or `rsp_valid` held high, or idle with `cmd_ready` high. -/
def Obligations.UnansweredBlockIsStuck : Prop :=
  ∀ (s : State) (n : Nat), s.script = [] → s.steady.rst = false →
    (s.srcRequest ≠ none → s.steady.srcAnswers = false → runEdges n s = .next s ∧ s.srcReq = true) ∧
      (s.dstRequest ≠ none → s.steady.dstAnswers = false → runEdges n s = .next s ∧ s.dstReq = true) ∧
      (s.phase = .resp → s.steady.rspReady = false → runEdges n s = .next s ∧ s.rspValid = true) ∧
      (s.phase = .idle → s.steady.cmdHold = true → runEdges n s = .next s ∧ s.cmdReady = true)

/-- R50: `rsp_word` is `{STATUS, OUT_LEN}` in phase `RESP`, stable until the response is taken, the word the host takes, and 0
outside `RESP`. That it is that word in `RESP` also while `rst` is 1 is the model's choice (log 12), and that an edge at which
the host breaks R109 or R110 is refused is log 8. -/
def Obligations.ResponseWordLine : Prop :=
  ∀ s : State,
    (s.phase = .resp → s.rspWord = s.status ++ s.outLen) ∧ (s.phase ≠ .resp → s.rspWord = 0#32) ∧
      (s.rspValid = true → hostMisuse s = none →
        (s.edge.rspReady = false →
          ∃ t, step s = .next t ∧ t.phase = .resp ∧ t.rspWord = s.rspWord ∧ t.responses = s.responses) ∧
          (s.edge.rspReady = true →
            ∃ t, step s = .next t ∧ t.phase = .idle ∧ t.rspWord = 0#32 ∧ t.responses = s.responses ++ [s.rspWord]))

end
end

