-- ==== Sys2Proof/Laws/Memory.lean ====
section
/-!
SUPPORT. The laws of a buffer: a read after a write, the canonical form kept by every operation, and that equal reads of
canonical buffers are equal data.
-/

namespace Sys2Proof.Machine

@[simp] theorem Memory.read_nil (a : Nat) : Memory.read [] a = Memory.unlisted := rfl

theorem Memory.read_cons (k : Nat) (b : Byte) (m : Memory) (a : Nat) :
    Memory.read ((k, b) :: m) a = if k = a then b else Memory.read m a := rfl

theorem Memory.read_erase (m : Memory) (a a' : Nat) :
    Memory.read (Memory.erase m a) a' = if a = a' then Memory.unlisted else Memory.read m a' := by
  induction m with
  | nil => simp [Memory.erase]
  | cons c m ih =>
    obtain ⟨k, b⟩ := c
    by_cases hk : k = a
    · subst hk
      simp only [Memory.erase, if_true, ih, Memory.read_cons]
      split <;> rfl
    · simp only [Memory.erase, if_neg hk, Memory.read_cons, ih]
      by_cases h : k = a'
      · subst h; simp [Ne.symm hk]
      · simp [h]

theorem Memory.read_insert (m : Memory) (a a' : Nat) (v : Byte) (h : Memory.read m a = Memory.unlisted)
    (hm : ∀ c ∈ m, c.1 ≠ a) :
    Memory.read (Memory.insert m a v) a' = if a = a' then v else Memory.read m a' := by
  induction m with
  | nil => simp [Memory.insert, Memory.read_cons]
  | cons c m ih =>
    obtain ⟨k, b⟩ := c
    have hk : k ≠ a := hm (k, b) (by simp)
    have ih' := ih (by simpa [Memory.read_cons, hk] using h) (fun c hc => hm c (by simp [hc]))
    by_cases hlt : a < k
    · simp [Memory.insert, hlt, Memory.read_cons]
    · simp only [Memory.insert, if_neg hlt, Memory.read_cons, ih']
      by_cases h' : k = a'
      · subst h'; simp [Ne.symm hk]
      · simp [h']

theorem Memory.erase_no_cell (m : Memory) (a : Nat) : ∀ c ∈ Memory.erase m a, c.1 ≠ a := by
  induction m with
  | nil => simp [Memory.erase]
  | cons c m ih =>
    obtain ⟨k, b⟩ := c
    by_cases hk : k = a
    · simpa [Memory.erase, hk] using ih
    · intro c hc
      simp only [Memory.erase, if_neg hk, List.mem_cons] at hc
      rcases hc with rfl | hc
      · exact hk
      · exact ih c hc

/-- A write is read back at its offset and leaves every other offset alone, whatever the list's form. -/
theorem Memory.read_write (m : Memory) (a a' : Nat) (v : Byte) :
    Memory.read (Memory.write m a v) a' = if a = a' then v else Memory.read m a' := by
  unfold Memory.write
  split
  · next h => rw [Memory.read_erase, h]
  · rw [Memory.read_insert _ _ _ _ (by rw [Memory.read_erase]; simp) (Memory.erase_no_cell m a), Memory.read_erase]
    split <;> rfl

@[simp] theorem Memory.read_write_same (m : Memory) (a : Nat) (v : Byte) : Memory.read (Memory.write m a v) a = v := by
  rw [Memory.read_write, if_pos rfl]

theorem Memory.read_write_other (m : Memory) {a a' : Nat} (v : Byte) (h : a ≠ a') :
    Memory.read (Memory.write m a v) a' = Memory.read m a' := by
  rw [Memory.read_write, if_neg h]

/-! ### The canonical form -/

theorem Memory.wfFrom_mono {lo lo' : Nat} (h : lo' ≤ lo) {m : Memory} (hm : Memory.wfFrom lo m = true) :
    Memory.wfFrom lo' m = true := by
  cases m with
  | nil => rfl
  | cons c m =>
    simp only [Memory.wfFrom, Bool.and_eq_true, decide_eq_true_eq] at hm ⊢
    exact ⟨⟨by omega, hm.1.2⟩, hm.2⟩

theorem Memory.wfFrom_erase {lo : Nat} {m : Memory} (hm : Memory.wfFrom lo m = true) (a : Nat) :
    Memory.wfFrom lo (Memory.erase m a) = true := by
  induction m generalizing lo with
  | nil => rfl
  | cons c m ih =>
    obtain ⟨k, b⟩ := c
    simp only [Memory.wfFrom, Bool.and_eq_true, decide_eq_true_eq] at hm
    by_cases hk : k = a
    · simp only [Memory.erase, if_pos hk]
      exact Memory.wfFrom_mono (by omega) (ih hm.2)
    · simp only [Memory.erase, if_neg hk, Memory.wfFrom, Bool.and_eq_true, decide_eq_true_eq]
      exact ⟨hm.1, ih hm.2⟩

theorem Memory.wfFrom_insert {lo a : Nat} {m : Memory} {v : Byte} (hm : Memory.wfFrom lo m = true) (hlo : lo ≤ a)
    (hv : v ≠ Memory.unlisted) (hna : ∀ c ∈ m, c.1 ≠ a) : Memory.wfFrom lo (Memory.insert m a v) = true := by
  induction m generalizing lo with
  | nil => simp [Memory.insert, Memory.wfFrom, hlo, hv]
  | cons c m ih =>
    obtain ⟨k, b⟩ := c
    have hk : k ≠ a := hna (k, b) (by simp)
    simp only [Memory.wfFrom, Bool.and_eq_true, decide_eq_true_eq] at hm
    by_cases hlt : a < k
    · simp only [Memory.insert, if_pos hlt, Memory.wfFrom, Bool.and_eq_true, decide_eq_true_eq]
      exact ⟨⟨hlo, by simp [hv]⟩, ⟨by omega, hm.1.2⟩, hm.2⟩
    · simp only [Memory.insert, if_neg hlt, Memory.wfFrom, Bool.and_eq_true, decide_eq_true_eq]
      exact ⟨hm.1, ih hm.2 (by omega) (fun c hc => hna c (by simp [hc]))⟩

/-- A write keeps the canonical form. -/
theorem Memory.wf_write {m : Memory} (hm : Memory.wf m = true) (a : Nat) (v : Byte) :
    Memory.wf (Memory.write m a v) = true := by
  unfold Memory.write
  split
  · exact Memory.wfFrom_erase hm a
  · next hv =>
    exact Memory.wfFrom_insert (Memory.wfFrom_erase hm a) (by omega) hv (Memory.erase_no_cell m a)

/-- The buffers right after reset are canonical. -/
theorem reset_buffers_wf : Memory.wf State.reset.src = true ∧ Memory.wf State.reset.dst = true := ⟨rfl, rfl⟩

theorem Memory.mem_erase {m : Memory} {a : Nat} {c : Host.Cell} (h : c ∈ Memory.erase m a) : c ∈ m := by
  induction m with
  | nil => simp [Memory.erase] at h
  | cons d m ih =>
    obtain ⟨k, b⟩ := d
    by_cases hk : k = a
    · simp only [Memory.erase, if_pos hk] at h
      exact List.mem_cons_of_mem _ (ih h)
    · simp only [Memory.erase, if_neg hk, List.mem_cons] at h
      rcases h with rfl | h
      · simp
      · exact List.mem_cons_of_mem _ (ih h)

theorem Memory.mem_insert {m : Memory} {a : Nat} {v : Byte} {c : Host.Cell} (h : c ∈ Memory.insert m a v) :
    c = (a, v) ∨ c ∈ m := by
  induction m with
  | nil => simpa [Memory.insert] using h
  | cons d m ih =>
    obtain ⟨k, b⟩ := d
    by_cases hlt : a < k
    · simpa [Memory.insert, hlt] using h
    · simp only [Memory.insert, if_neg hlt, List.mem_cons] at h
      rcases h with rfl | h
      · simp
      · rcases ih h with h | h
        · exact .inl h
        · exact .inr (List.mem_cons_of_mem _ h)

/-- A write inside a space keeps the buffer inside it. -/
theorem Memory.within_write {size : Nat} {m : Memory} (hm : Memory.within size m = true) {a : Nat} (ha : a < size)
    (v : Byte) : Memory.within size (Memory.write m a v) = true := by
  simp only [Memory.within, List.all_eq_true, decide_eq_true_eq] at hm ⊢
  intro c hc
  unfold Memory.write at hc
  split at hc
  · exact hm c (Memory.mem_erase hc)
  · rcases Memory.mem_insert hc with rfl | hc
    · exact ha
    · exact hm c (Memory.mem_erase hc)

theorem Memory.read_below {lo : Nat} {m : Memory} (hm : Memory.wfFrom lo m = true) {a : Nat} (h : a < lo) :
    Memory.read m a = Memory.unlisted := by
  induction m generalizing lo with
  | nil => rfl
  | cons c m ih =>
    obtain ⟨k, b⟩ := c
    simp only [Memory.wfFrom, Bool.and_eq_true, decide_eq_true_eq] at hm
    rw [Memory.read_cons, if_neg (by omega), ih hm.2 (by omega)]

theorem Memory.ext_from {lo lo' : Nat} {m m' : Memory} (hm : Memory.wfFrom lo m = true)
    (hm' : Memory.wfFrom lo' m' = true) (h : ∀ a, Memory.read m a = Memory.read m' a) : m = m' := by
  induction m generalizing lo lo' m' with
  | nil =>
    cases m' with
    | nil => rfl
    | cons c m' =>
      obtain ⟨k, b⟩ := c
      have hb := h k
      simp only [Memory.wfFrom, Bool.and_eq_true] at hm'
      simp [Memory.read_cons] at hb
      simp [← hb] at hm'
  | cons c m ih =>
    obtain ⟨k, b⟩ := c
    cases m' with
    | nil =>
      have hb := h k
      simp only [Memory.wfFrom, Bool.and_eq_true] at hm
      simp [Memory.read_cons] at hb
      simp [hb] at hm
    | cons c' m' =>
      obtain ⟨k', b'⟩ := c'
      simp only [Memory.wfFrom, Bool.and_eq_true, decide_eq_true_eq, Bool.not_eq_true', beq_eq_false_iff_ne] at hm hm'
      have hkk : k = k' := by
        rcases Nat.lt_trichotomy k k' with hlt | heq | hgt
        · have := h k
          rw [Memory.read_cons, if_pos rfl, Memory.read_cons, if_neg (by omega), Memory.read_below hm'.2 (by omega)] at this
          exact absurd this hm.1.2
        · exact heq
        · have := h k'
          rw [Memory.read_cons, if_neg (by omega), Memory.read_cons, if_pos rfl, Memory.read_below hm.2 (by omega)] at this
          exact absurd this.symm hm'.1.2
      subst hkk
      have hbb : b = b' := by simpa [Memory.read_cons] using h k
      subst hbb
      have : m = m' := by
        refine ih hm.2 hm'.2 (fun a => ?_)
        have := h a
        simp only [Memory.read_cons] at this
        by_cases ha : k = a
        · subst ha
          rw [Memory.read_below hm.2 (by omega), Memory.read_below hm'.2 (by omega)]
        · simpa [ha] using this
      rw [this]

/-- Two canonical buffers that read the same are the same list. -/
theorem Memory.ext_wf {m m' : Memory} (hm : Memory.wf m = true) (hm' : Memory.wf m' = true)
    (h : ∀ a, Memory.read m a = Memory.read m' a) : m = m' :=
  Memory.ext_from hm hm' h

end Sys2Proof.Machine
end

