-- ==== Sys2Proof/Laws/State.lean ====
section
/-!
SUPPORT. One lemma for each field under each update of State, so that no proof unfolds an update.
-/

namespace Sys2Proof.Machine

variable (s : State)

/-! ### `State.setPhase` -/

@[simp] theorem State.setPhase_phase (p : Phase) : (s.setPhase p).phase = p := rfl
@[simp] theorem State.setPhase_mode (p : Phase) : (s.setPhase p).mode = s.mode := rfl
@[simp] theorem State.setPhase_len (p : Phase) : (s.setPhase p).len = s.len := rfl
@[simp] theorem State.setPhase_pix (p : Phase) : (s.setPhase p).pix = s.pix := rfl
@[simp] theorem State.setPhase_status (p : Phase) : (s.setPhase p).status = s.status := rfl
@[simp] theorem State.setPhase_outLen (p : Phase) : (s.setPhase p).outLen = s.outLen := rfl
@[simp] theorem State.setPhase_stage (p : Phase) : (s.setPhase p).stage = s.stage := rfl
@[simp] theorem State.setPhase_nativeByteOrder (p : Phase) : (s.setPhase p).nativeByteOrder = s.nativeByteOrder := rfl
@[simp] theorem State.setPhase_src (p : Phase) : (s.setPhase p).src = s.src := rfl
@[simp] theorem State.setPhase_dst (p : Phase) : (s.setPhase p).dst = s.dst := rfl
@[simp] theorem State.setPhase_commands (p : Phase) : (s.setPhase p).commands = s.commands := rfl
@[simp] theorem State.setPhase_responses (p : Phase) : (s.setPhase p).responses = s.responses := rfl
@[simp] theorem State.setPhase_script (p : Phase) : (s.setPhase p).script = s.script := rfl
@[simp] theorem State.setPhase_steady (p : Phase) : (s.setPhase p).steady = s.steady := rfl

/-! ### `State.setCommand` -/

@[simp] theorem State.setCommand_phase (m : Mode) (n : Len) : (s.setCommand m n).phase = s.phase := rfl
@[simp] theorem State.setCommand_mode (m : Mode) (n : Len) : (s.setCommand m n).mode = m := rfl
@[simp] theorem State.setCommand_len (m : Mode) (n : Len) : (s.setCommand m n).len = n := rfl
@[simp] theorem State.setCommand_pix (m : Mode) (n : Len) : (s.setCommand m n).pix = s.pix := rfl
@[simp] theorem State.setCommand_status (m : Mode) (n : Len) : (s.setCommand m n).status = s.status := rfl
@[simp] theorem State.setCommand_outLen (m : Mode) (n : Len) : (s.setCommand m n).outLen = s.outLen := rfl
@[simp] theorem State.setCommand_stage (m : Mode) (n : Len) : (s.setCommand m n).stage = s.stage := rfl
@[simp] theorem State.setCommand_nativeByteOrder (m : Mode) (n : Len) : (s.setCommand m n).nativeByteOrder = s.nativeByteOrder := rfl
@[simp] theorem State.setCommand_src (m : Mode) (n : Len) : (s.setCommand m n).src = s.src := rfl
@[simp] theorem State.setCommand_dst (m : Mode) (n : Len) : (s.setCommand m n).dst = s.dst := rfl
@[simp] theorem State.setCommand_commands (m : Mode) (n : Len) : (s.setCommand m n).commands = s.commands := rfl
@[simp] theorem State.setCommand_responses (m : Mode) (n : Len) : (s.setCommand m n).responses = s.responses := rfl
@[simp] theorem State.setCommand_script (m : Mode) (n : Len) : (s.setCommand m n).script = s.script := rfl
@[simp] theorem State.setCommand_steady (m : Mode) (n : Len) : (s.setCommand m n).steady = s.steady := rfl

/-! ### `State.setPix` -/

@[simp] theorem State.setPix_phase (i : PixIndex) : (s.setPix i).phase = s.phase := rfl
@[simp] theorem State.setPix_mode (i : PixIndex) : (s.setPix i).mode = s.mode := rfl
@[simp] theorem State.setPix_len (i : PixIndex) : (s.setPix i).len = s.len := rfl
@[simp] theorem State.setPix_pix (i : PixIndex) : (s.setPix i).pix = i := rfl
@[simp] theorem State.setPix_status (i : PixIndex) : (s.setPix i).status = s.status := rfl
@[simp] theorem State.setPix_outLen (i : PixIndex) : (s.setPix i).outLen = s.outLen := rfl
@[simp] theorem State.setPix_stage (i : PixIndex) : (s.setPix i).stage = s.stage := rfl
@[simp] theorem State.setPix_nativeByteOrder (i : PixIndex) : (s.setPix i).nativeByteOrder = s.nativeByteOrder := rfl
@[simp] theorem State.setPix_src (i : PixIndex) : (s.setPix i).src = s.src := rfl
@[simp] theorem State.setPix_dst (i : PixIndex) : (s.setPix i).dst = s.dst := rfl
@[simp] theorem State.setPix_commands (i : PixIndex) : (s.setPix i).commands = s.commands := rfl
@[simp] theorem State.setPix_responses (i : PixIndex) : (s.setPix i).responses = s.responses := rfl
@[simp] theorem State.setPix_script (i : PixIndex) : (s.setPix i).script = s.script := rfl
@[simp] theorem State.setPix_steady (i : PixIndex) : (s.setPix i).steady = s.steady := rfl

/-! ### `State.setResult` -/

@[simp] theorem State.setResult_phase (c : StatusCode) (n : OutLen) : (s.setResult c n).phase = s.phase := rfl
@[simp] theorem State.setResult_mode (c : StatusCode) (n : OutLen) : (s.setResult c n).mode = s.mode := rfl
@[simp] theorem State.setResult_len (c : StatusCode) (n : OutLen) : (s.setResult c n).len = s.len := rfl
@[simp] theorem State.setResult_pix (c : StatusCode) (n : OutLen) : (s.setResult c n).pix = s.pix := rfl
@[simp] theorem State.setResult_status (c : StatusCode) (n : OutLen) : (s.setResult c n).status = c := rfl
@[simp] theorem State.setResult_outLen (c : StatusCode) (n : OutLen) : (s.setResult c n).outLen = n := rfl
@[simp] theorem State.setResult_stage (c : StatusCode) (n : OutLen) : (s.setResult c n).stage = s.stage := rfl
@[simp] theorem State.setResult_nativeByteOrder (c : StatusCode) (n : OutLen) : (s.setResult c n).nativeByteOrder = s.nativeByteOrder := rfl
@[simp] theorem State.setResult_src (c : StatusCode) (n : OutLen) : (s.setResult c n).src = s.src := rfl
@[simp] theorem State.setResult_dst (c : StatusCode) (n : OutLen) : (s.setResult c n).dst = s.dst := rfl
@[simp] theorem State.setResult_commands (c : StatusCode) (n : OutLen) : (s.setResult c n).commands = s.commands := rfl
@[simp] theorem State.setResult_responses (c : StatusCode) (n : OutLen) : (s.setResult c n).responses = s.responses := rfl
@[simp] theorem State.setResult_script (c : StatusCode) (n : OutLen) : (s.setResult c n).script = s.script := rfl
@[simp] theorem State.setResult_steady (c : StatusCode) (n : OutLen) : (s.setResult c n).steady = s.steady := rfl

/-! ### `State.setStage` -/

@[simp] theorem State.setStage_phase (g : PixelStage) : (s.setStage g).phase = s.phase := rfl
@[simp] theorem State.setStage_mode (g : PixelStage) : (s.setStage g).mode = s.mode := rfl
@[simp] theorem State.setStage_len (g : PixelStage) : (s.setStage g).len = s.len := rfl
@[simp] theorem State.setStage_pix (g : PixelStage) : (s.setStage g).pix = s.pix := rfl
@[simp] theorem State.setStage_status (g : PixelStage) : (s.setStage g).status = s.status := rfl
@[simp] theorem State.setStage_outLen (g : PixelStage) : (s.setStage g).outLen = s.outLen := rfl
@[simp] theorem State.setStage_stage (g : PixelStage) : (s.setStage g).stage = g := rfl
@[simp] theorem State.setStage_nativeByteOrder (g : PixelStage) : (s.setStage g).nativeByteOrder = s.nativeByteOrder := rfl
@[simp] theorem State.setStage_src (g : PixelStage) : (s.setStage g).src = s.src := rfl
@[simp] theorem State.setStage_dst (g : PixelStage) : (s.setStage g).dst = s.dst := rfl
@[simp] theorem State.setStage_commands (g : PixelStage) : (s.setStage g).commands = s.commands := rfl
@[simp] theorem State.setStage_responses (g : PixelStage) : (s.setStage g).responses = s.responses := rfl
@[simp] theorem State.setStage_script (g : PixelStage) : (s.setStage g).script = s.script := rfl
@[simp] theorem State.setStage_steady (g : PixelStage) : (s.setStage g).steady = s.steady := rfl

/-! ### `State.setSrc` -/

@[simp] theorem State.setSrc_phase (m : Memory) : (s.setSrc m).phase = s.phase := rfl
@[simp] theorem State.setSrc_mode (m : Memory) : (s.setSrc m).mode = s.mode := rfl
@[simp] theorem State.setSrc_len (m : Memory) : (s.setSrc m).len = s.len := rfl
@[simp] theorem State.setSrc_pix (m : Memory) : (s.setSrc m).pix = s.pix := rfl
@[simp] theorem State.setSrc_status (m : Memory) : (s.setSrc m).status = s.status := rfl
@[simp] theorem State.setSrc_outLen (m : Memory) : (s.setSrc m).outLen = s.outLen := rfl
@[simp] theorem State.setSrc_stage (m : Memory) : (s.setSrc m).stage = s.stage := rfl
@[simp] theorem State.setSrc_nativeByteOrder (m : Memory) : (s.setSrc m).nativeByteOrder = s.nativeByteOrder := rfl
@[simp] theorem State.setSrc_src (m : Memory) : (s.setSrc m).src = m := rfl
@[simp] theorem State.setSrc_dst (m : Memory) : (s.setSrc m).dst = s.dst := rfl
@[simp] theorem State.setSrc_commands (m : Memory) : (s.setSrc m).commands = s.commands := rfl
@[simp] theorem State.setSrc_responses (m : Memory) : (s.setSrc m).responses = s.responses := rfl
@[simp] theorem State.setSrc_script (m : Memory) : (s.setSrc m).script = s.script := rfl
@[simp] theorem State.setSrc_steady (m : Memory) : (s.setSrc m).steady = s.steady := rfl

/-! ### `State.setDst` -/

@[simp] theorem State.setDst_phase (m : Memory) : (s.setDst m).phase = s.phase := rfl
@[simp] theorem State.setDst_mode (m : Memory) : (s.setDst m).mode = s.mode := rfl
@[simp] theorem State.setDst_len (m : Memory) : (s.setDst m).len = s.len := rfl
@[simp] theorem State.setDst_pix (m : Memory) : (s.setDst m).pix = s.pix := rfl
@[simp] theorem State.setDst_status (m : Memory) : (s.setDst m).status = s.status := rfl
@[simp] theorem State.setDst_outLen (m : Memory) : (s.setDst m).outLen = s.outLen := rfl
@[simp] theorem State.setDst_stage (m : Memory) : (s.setDst m).stage = s.stage := rfl
@[simp] theorem State.setDst_nativeByteOrder (m : Memory) : (s.setDst m).nativeByteOrder = s.nativeByteOrder := rfl
@[simp] theorem State.setDst_src (m : Memory) : (s.setDst m).src = s.src := rfl
@[simp] theorem State.setDst_dst (m : Memory) : (s.setDst m).dst = m := rfl
@[simp] theorem State.setDst_commands (m : Memory) : (s.setDst m).commands = s.commands := rfl
@[simp] theorem State.setDst_responses (m : Memory) : (s.setDst m).responses = s.responses := rfl
@[simp] theorem State.setDst_script (m : Memory) : (s.setDst m).script = s.script := rfl
@[simp] theorem State.setDst_steady (m : Memory) : (s.setDst m).steady = s.steady := rfl

/-! ### `State.popCommand` -/

@[simp] theorem State.popCommand_phase : (s.popCommand).phase = s.phase := rfl
@[simp] theorem State.popCommand_mode : (s.popCommand).mode = s.mode := rfl
@[simp] theorem State.popCommand_len : (s.popCommand).len = s.len := rfl
@[simp] theorem State.popCommand_pix : (s.popCommand).pix = s.pix := rfl
@[simp] theorem State.popCommand_status : (s.popCommand).status = s.status := rfl
@[simp] theorem State.popCommand_outLen : (s.popCommand).outLen = s.outLen := rfl
@[simp] theorem State.popCommand_stage : (s.popCommand).stage = s.stage := rfl
@[simp] theorem State.popCommand_nativeByteOrder : (s.popCommand).nativeByteOrder = s.nativeByteOrder := rfl
@[simp] theorem State.popCommand_src : (s.popCommand).src = s.src := rfl
@[simp] theorem State.popCommand_dst : (s.popCommand).dst = s.dst := rfl
@[simp] theorem State.popCommand_commands : (s.popCommand).commands = s.commands.tail := rfl
@[simp] theorem State.popCommand_responses : (s.popCommand).responses = s.responses := rfl
@[simp] theorem State.popCommand_script : (s.popCommand).script = s.script := rfl
@[simp] theorem State.popCommand_steady : (s.popCommand).steady = s.steady := rfl

/-! ### `State.pushResponse` -/

@[simp] theorem State.pushResponse_phase (r : RspWord) : (s.pushResponse r).phase = s.phase := rfl
@[simp] theorem State.pushResponse_mode (r : RspWord) : (s.pushResponse r).mode = s.mode := rfl
@[simp] theorem State.pushResponse_len (r : RspWord) : (s.pushResponse r).len = s.len := rfl
@[simp] theorem State.pushResponse_pix (r : RspWord) : (s.pushResponse r).pix = s.pix := rfl
@[simp] theorem State.pushResponse_status (r : RspWord) : (s.pushResponse r).status = s.status := rfl
@[simp] theorem State.pushResponse_outLen (r : RspWord) : (s.pushResponse r).outLen = s.outLen := rfl
@[simp] theorem State.pushResponse_stage (r : RspWord) : (s.pushResponse r).stage = s.stage := rfl
@[simp] theorem State.pushResponse_nativeByteOrder (r : RspWord) : (s.pushResponse r).nativeByteOrder = s.nativeByteOrder := rfl
@[simp] theorem State.pushResponse_src (r : RspWord) : (s.pushResponse r).src = s.src := rfl
@[simp] theorem State.pushResponse_dst (r : RspWord) : (s.pushResponse r).dst = s.dst := rfl
@[simp] theorem State.pushResponse_commands (r : RspWord) : (s.pushResponse r).commands = s.commands := rfl
@[simp] theorem State.pushResponse_responses (r : RspWord) : (s.pushResponse r).responses = s.responses ++ [r] := rfl
@[simp] theorem State.pushResponse_script (r : RspWord) : (s.pushResponse r).script = s.script := rfl
@[simp] theorem State.pushResponse_steady (r : RspWord) : (s.pushResponse r).steady = s.steady := rfl

/-! ### `State.popEdge` -/

@[simp] theorem State.popEdge_phase : (s.popEdge).phase = s.phase := rfl
@[simp] theorem State.popEdge_mode : (s.popEdge).mode = s.mode := rfl
@[simp] theorem State.popEdge_len : (s.popEdge).len = s.len := rfl
@[simp] theorem State.popEdge_pix : (s.popEdge).pix = s.pix := rfl
@[simp] theorem State.popEdge_status : (s.popEdge).status = s.status := rfl
@[simp] theorem State.popEdge_outLen : (s.popEdge).outLen = s.outLen := rfl
@[simp] theorem State.popEdge_stage : (s.popEdge).stage = s.stage := rfl
@[simp] theorem State.popEdge_nativeByteOrder : (s.popEdge).nativeByteOrder = s.nativeByteOrder := rfl
@[simp] theorem State.popEdge_src : (s.popEdge).src = s.src := rfl
@[simp] theorem State.popEdge_dst : (s.popEdge).dst = s.dst := rfl
@[simp] theorem State.popEdge_commands : (s.popEdge).commands = s.commands := rfl
@[simp] theorem State.popEdge_responses : (s.popEdge).responses = s.responses := rfl
@[simp] theorem State.popEdge_script : (s.popEdge).script = s.script.tail := rfl
@[simp] theorem State.popEdge_steady : (s.popEdge).steady = s.steady := rfl

end Sys2Proof.Machine
end

