-- ==== Sys2Proof/Laws/Ops.lean ====
section
/-!
SUPPORT. What each shared operation can do, said once: the offsets, the lanes, the accept, the reset edge, the host's writes,
and the inversions of a command's step and of the machine's step.
-/

namespace Sys2Proof.Machine

/-! ### Lengths and offsets -/

theorem lengthValid_iff (len : Len) : lengthValid len = true ↔ len.toNat % 4 = 0 := by
  rw [lengthValid, beq_iff_eq, ← BitVec.toNat_inj]
  simp [BitVec.extractLsb'_toNat]

theorem outLenOf_toNat (len : Len) : (outLenOf len).toNat = len.toNat / 2 := by
  have := len.isLt
  simp [outLenOf, BitVec.extractLsb'_toNat, Nat.shiftRight_eq_div_pow]
  omega

theorem sourceOffset_toNat (pix : PixIndex) {k : Nat} (hk : k < 4) : (sourceOffset pix k).toNat = 4 * pix.toNat + k := by
  have := pix.isLt
  simp only [sourceOffset, BitVec.toNat_ofNat]
  omega

theorem targetOffset_toNat (pix : PixIndex) : (targetOffset pix).toNat = 2 * pix.toNat := by
  have := pix.isLt
  simp only [targetOffset, BitVec.toNat_ofNat]
  omega

theorem pixelLeft_iff (s : State) : s.pixelLeft = true ↔ 4 * s.pix.toNat < s.len.toNat := by simp [State.pixelLeft]

theorem passOver_iff (s : State) : s.passOver = true ↔ 4 * s.pix.toNat = s.len.toNat := by simp [State.passOver]

/-! ### The lanes of the three writes -/

theorem low_lane (a b : Byte) : (a ++ b : BitVec 16).extractLsb' 0 8 = b := by
  apply BitVec.eq_of_getLsbD_eq
  intro i hi
  rw [BitVec.getLsbD_extractLsb', Nat.zero_add]
  refine Eq.trans (congrArg _ (BitVec.getLsbD_append (x := a) (y := b))) ?_
  simp [hi]

theorem high_lane (a b : Byte) : (a ++ b : BitVec 16).extractLsb' 8 8 = a := by
  apply BitVec.eq_of_getLsbD_eq
  intro i hi
  rw [BitVec.getLsbD_extractLsb']
  refine Eq.trans (congrArg _ (BitVec.getLsbD_append (x := a) (y := b))) ?_
  simp [hi]

theorem applyLanes_both (m : Memory) (a : DstAddr) (b0 b1 : Byte) :
    applyLanes m { addr := a, be := 3, wdata := b1 ++ b0 } = Memory.write (Memory.write m a.toNat b0) (a.toNat + 1) b1 := by
  simp [applyLanes, low_lane, high_lane]

theorem applyLanes_low (m : Memory) (a : DstAddr) (b1 b0 : Byte) :
    applyLanes m { addr := a, be := 1, wdata := b1 ++ b0 } = Memory.write m a.toNat b0 := by
  simp [applyLanes, low_lane]

theorem applyLanes_high (m : Memory) (a : DstAddr) (b1 b0 : Byte) :
    applyLanes m { addr := a, be := 2, wdata := b1 ++ b0 } = Memory.write m (a.toNat + 1) b1 := by
  simp [applyLanes, high_lane]

/-- The bytes a native write stores, by offset. -/
theorem applyLanes_nativeWrite (m : Memory) (o : ByteOrder) (pix : PixIndex) (r g b : Byte) :
    applyLanes m (nativeWrite o pix r g b) =
      Memory.write (Memory.write m (2 * pix.toNat) (pixelBytes .packedNative o r g b).1) (2 * pix.toNat + 1)
        (pixelBytes .packedNative o r g b).2 := by
  simp only [nativeWrite, applyLanes_both, targetOffset_toNat, pixelBytes, packFor, orderFor]

/-- The byte the first swapped write stores. -/
theorem applyLanes_swappedFirstWrite (m : Memory) (o : ByteOrder) (pix : PixIndex) (r g b : Byte) :
    applyLanes m (swappedFirstWrite pix r g b) =
      Memory.write m (2 * pix.toNat) (pixelBytes .bigEndianSwapped o r g b).1 := by
  simp only [swappedFirstWrite, applyLanes_low, targetOffset_toNat, pixelBytes, packFor, orderFor]

/-- The byte the second swapped write stores. -/
theorem applyLanes_swappedSecondWrite (m : Memory) (o : ByteOrder) (pix : PixIndex) (r g b : Byte) :
    applyLanes m (swappedSecondWrite pix r g b) =
      Memory.write m (2 * pix.toNat + 1) (pixelBytes .bigEndianSwapped o r g b).2 := by
  simp only [swappedSecondWrite, applyLanes_high, targetOffset_toNat, pixelBytes, packFor, orderFor]

/-! ### The accept -/

theorem accept_of_valid (m : Mode) {len : Len} (h : lengthValid len = true) (s : State) :
    accept m len s =
      { s with phase := .run, mode := m, len := len, pix := 0, status := 0, outLen := outLenOf len, stage := .readRed,
               commands := s.commands.tail } := by
  simp only [accept, h, if_true]
  rfl

theorem accept_of_invalid (m : Mode) {len : Len} (h : lengthValid len = false) (s : State) :
    accept m len s =
      { s with phase := .resp, mode := m, len := len, pix := 0, status := 1, outLen := 0, stage := .readRed,
               commands := s.commands.tail } := by
  simp only [accept, h, Bool.false_eq_true, if_false]
  rfl

/-- An accept that takes the next phase, result and command into account leaves the buffers and the environment alone. -/
theorem accept_frame (m : Mode) (len : Len) (s : State) :
    (accept m len s).src = s.src ∧ (accept m len s).dst = s.dst ∧ (accept m len s).responses = s.responses ∧
      (accept m len s).nativeByteOrder = s.nativeByteOrder ∧ (accept m len s).script = s.script ∧
      (accept m len s).steady = s.steady := by
  cases h : lengthValid len
  · rw [accept_of_invalid m h]; simp
  · rw [accept_of_valid m h]; simp

/-! ### The clock edge around a step -/

theorem resetEdge_eq (s : State) :
    resetEdge s =
      { s with phase := .idle, mode := .packedNative, len := 0, pix := 0, status := 0, outLen := 0, stage := .readRed } :=
  rfl

theorem endEdge_eq (e : Edge) (s : State) :
    endEdge e s =
      { s with src := hostWriteSrc s.src e.srcWrites, dst := hostWriteDst s.dst e.dstWrites, script := s.script.tail } :=
  rfl

theorem hostWriteSrc_read (m : Memory) (ws : List (SrcAddr × Byte)) (a : Nat) (h : ∀ c ∈ ws, c.1.toNat ≠ a) :
    Memory.read (hostWriteSrc m ws) a = Memory.read m a := by
  induction ws generalizing m with
  | nil => rfl
  | cons c ws ih =>
    have := ih (Memory.write m c.1.toNat c.2) (fun d hd => h d (by simp [hd]))
    simpa [hostWriteSrc, Memory.read_write_other m c.2 (h c (by simp))] using this

theorem hostWriteDst_read (m : Memory) (ws : List (DstAddr × Byte)) (a : Nat) (h : ∀ c ∈ ws, c.1.toNat ≠ a) :
    Memory.read (hostWriteDst m ws) a = Memory.read m a := by
  induction ws generalizing m with
  | nil => rfl
  | cons c ws ih =>
    have := ih (Memory.write m c.1.toNat c.2) (fun d hd => h d (by simp [hd]))
    simpa [hostWriteDst, Memory.read_write_other m c.2 (h c (by simp))] using this

theorem hostWriteSrc_wf {m : Memory} (hm : Memory.wf m = true) (ws : List (SrcAddr × Byte)) :
    Memory.wf (hostWriteSrc m ws) = true := by
  induction ws generalizing m with
  | nil => exact hm
  | cons c ws ih => exact ih (Memory.wf_write hm _ _)

theorem hostWriteDst_wf {m : Memory} (hm : Memory.wf m = true) (ws : List (DstAddr × Byte)) :
    Memory.wf (hostWriteDst m ws) = true := by
  induction ws generalizing m with
  | nil => exact hm
  | cons c ws ih => exact ih (Memory.wf_write hm _ _)

theorem hostWriteSrc_within {m : Memory} (hm : Memory.within (2 ^ 31) m = true) (ws : List (SrcAddr × Byte)) :
    Memory.within (2 ^ 31) (hostWriteSrc m ws) = true := by
  induction ws generalizing m with
  | nil => exact hm
  | cons c ws ih => exact ih (Memory.within_write hm c.1.isLt _)

theorem hostWriteDst_within {m : Memory} (hm : Memory.within (2 ^ 30) m = true) (ws : List (DstAddr × Byte)) :
    Memory.within (2 ^ 30) (hostWriteDst m ws) = true := by
  induction ws generalizing m with
  | nil => exact hm
  | cons c ws ih => exact ih (Memory.within_write hm c.1.isLt _)

theorem applyLanes_wf {m : Memory} (hm : Memory.wf m = true) (w : DstWrite) : Memory.wf (applyLanes m w) = true := by
  unfold applyLanes
  split <;> split <;> simp only [Memory.wf_write, hm]

theorem memWriteByte_wf {m : Memory} (hm : Memory.wf m = true) (a : DstAddr) (b : Byte) :
    Memory.wf (memWriteByte m a b) = true :=
  Memory.wf_write hm _ _

theorem memWriteUnit_wf {m : Memory} (hm : Memory.wf m = true) (o : ByteOrder) (a : DstAddr) (v : Value16) :
    Memory.wf (memWriteUnit o m a v) = true := by
  cases o <;> exact Memory.wf_write (Memory.wf_write hm _ _) _ _

/-- A host that is not refused during a command writes no byte the command owns. -/
theorem hostMisuse_none {s : State} (h : hostMisuse s = none) (hp : s.phase ≠ .idle) (hr : s.edge.rst = false) :
    (∀ c ∈ s.edge.srcWrites, s.len.toNat ≤ c.1.toNat) ∧ ∀ c ∈ s.edge.dstWrites, s.len.toNat / 2 ≤ c.1.toNat := by
  simp only [hostMisuse, hp, hr, Bool.false_eq_true, or_self, if_false] at h
  split at h
  · cases h
  · next hs =>
    split at h
    · cases h
    · next hd =>
      simp only [List.any_eq_true, decide_eq_true_eq, not_exists, not_and, Nat.not_lt] at hs hd
      exact ⟨hs, hd⟩

/-! ### What a command's step can do -/

/-- The next states of a command's step, one case each (R71, R88). -/
inductive ExecCase (i : Instr) (s : State) : State → Prop where
  | accept (hp : s.phase = .idle) : ExecCase i s (accept i.mode i.len s)
  | waitRead (hp : s.phase = .run) (hl : 4 * s.pix.toNat < s.len.toNat) (ha : s.edge.srcAck = false) : ExecCase i s s
  | waitWrite (hp : s.phase = .run) (hl : 4 * s.pix.toNat < s.len.toNat) (ha : s.edge.dstAck = false) : ExecCase i s s
  | readRed (hp : s.phase = .run) (hl : 4 * s.pix.toNat < s.len.toNat) (hg : s.stage = .readRed)
      (ha : s.edge.srcAck = true) : ExecCase i s (s.setStage (.readGreen (memRead s.src (sourceOffset s.pix 0))))
  | readGreen (r : Byte) (hp : s.phase = .run) (hl : 4 * s.pix.toNat < s.len.toNat) (hg : s.stage = .readGreen r)
      (ha : s.edge.srcAck = true) : ExecCase i s (s.setStage (.readBlue r (memRead s.src (sourceOffset s.pix 1))))
  | readBlue (r g : Byte) (hp : s.phase = .run) (hl : 4 * s.pix.toNat < s.len.toNat) (hg : s.stage = .readBlue r g)
      (ha : s.edge.srcAck = true) : ExecCase i s (s.setStage (.writeFirst r g (memRead s.src (sourceOffset s.pix 2))))
  | nativeWrite (r g b : Byte) (hm : i.mode = .packedNative) (hp : s.phase = .run)
      (hl : 4 * s.pix.toNat < s.len.toNat) (hg : s.stage = .writeFirst r g b) (ha : s.edge.dstAck = true) :
      ExecCase i s (nextPixel (s.setDst (applyLanes s.dst (nativeWrite s.nativeByteOrder s.pix r g b))))
  | swappedFirst (r g b : Byte) (hm : i.mode = .bigEndianSwapped) (hp : s.phase = .run)
      (hl : 4 * s.pix.toNat < s.len.toNat) (hg : s.stage = .writeFirst r g b) (ha : s.edge.dstAck = true) :
      ExecCase i s ((s.setDst (applyLanes s.dst (swappedFirstWrite s.pix r g b))).setStage (.writeSecond r g b))
  | swappedSecond (r g b : Byte) (hm : i.mode = .bigEndianSwapped) (hp : s.phase = .run)
      (hl : 4 * s.pix.toNat < s.len.toNat) (hg : s.stage = .writeSecond r g b) (ha : s.edge.dstAck = true) :
      ExecCase i s (nextPixel (s.setDst (applyLanes s.dst (swappedSecondWrite s.pix r g b))))
  | finish (hp : s.phase = .run) (hl : 4 * s.pix.toNat = s.len.toNat) : ExecCase i s (s.setPhase .resp)
  | respond (hp : s.phase = .resp) (hr : s.edge.rspReady = true) :
      ExecCase i s ((s.pushResponse s.rspWord).setPhase .idle)
  | waitRespond (hp : s.phase = .resp) (hr : s.edge.rspReady = false) : ExecCase i s s

theorem readSource_next {k : Nat} {f : Byte → PixelStage} {s t : State} (h : readSource k f s = .next t) :
    (s.edge.srcAck = true ∧ t = s.setStage (f (memRead s.src (sourceOffset s.pix k)))) ∨
      (s.edge.srcAck = false ∧ t = s) := by
  unfold readSource at h
  split at h <;> simp_all

theorem writeTarget_next {w : DstWrite} {f : State → State} {s t : State} (h : writeTarget w f s = .next t) :
    (s.edge.dstAck = true ∧ t = f (s.setDst (applyLanes s.dst w))) ∨ (s.edge.dstAck = false ∧ t = s) := by
  unfold writeTarget at h
  split at h <;> simp_all

theorem respond_next {s t : State} (h : respond s = .next t) :
    (s.edge.rspReady = true ∧ t = (s.pushResponse s.rspWord).setPhase .idle) ∨ (s.edge.rspReady = false ∧ t = s) := by
  unfold respond at h
  split at h <;> simp_all

theorem nativePixel_next {len : Len} {s t : State} (hp : s.phase = .run) (hl : 4 * s.pix.toNat < s.len.toNat)
    (h : nativePixel s = .next t) : ExecCase (.convNative len) s t := by
  unfold nativePixel at h
  split at h
  · next hg =>
    obtain ⟨ha, rfl⟩ | ⟨ha, rfl⟩ := readSource_next h
    · exact .readRed hp hl hg ha
    · exact .waitRead hp hl ha
  · next r hg =>
    obtain ⟨ha, rfl⟩ | ⟨ha, rfl⟩ := readSource_next h
    · exact .readGreen r hp hl hg ha
    · exact .waitRead hp hl ha
  · next r g hg =>
    obtain ⟨ha, rfl⟩ | ⟨ha, rfl⟩ := readSource_next h
    · exact .readBlue r g hp hl hg ha
    · exact .waitRead hp hl ha
  · next r g b hg =>
    obtain ⟨ha, rfl⟩ | ⟨ha, rfl⟩ := writeTarget_next h
    · exact .nativeWrite r g b rfl hp hl hg ha
    · exact .waitWrite hp hl ha
  · cases h

theorem swappedPixel_next {len : Len} {s t : State} (hp : s.phase = .run) (hl : 4 * s.pix.toNat < s.len.toNat)
    (h : swappedPixel s = .next t) : ExecCase (.convSwapped len) s t := by
  unfold swappedPixel at h
  split at h
  · next hg =>
    obtain ⟨ha, rfl⟩ | ⟨ha, rfl⟩ := readSource_next h
    · exact .readRed hp hl hg ha
    · exact .waitRead hp hl ha
  · next r hg =>
    obtain ⟨ha, rfl⟩ | ⟨ha, rfl⟩ := readSource_next h
    · exact .readGreen r hp hl hg ha
    · exact .waitRead hp hl ha
  · next r g hg =>
    obtain ⟨ha, rfl⟩ | ⟨ha, rfl⟩ := readSource_next h
    · exact .readBlue r g hp hl hg ha
    · exact .waitRead hp hl ha
  · next r g b hg =>
    obtain ⟨ha, rfl⟩ | ⟨ha, rfl⟩ := writeTarget_next h
    · exact .swappedFirst r g b rfl hp hl hg ha
    · exact .waitWrite hp hl ha
  · next r g b hg =>
    obtain ⟨ha, rfl⟩ | ⟨ha, rfl⟩ := writeTarget_next h
    · exact .swappedSecond r g b rfl hp hl hg ha
    · exact .waitWrite hp hl ha

/-- The phases around a pixel step: what `commandStep` can do, given what the pixel step can. -/
theorem commandStep_next {i : Instr} {pixel : State → Host.Outcome State Fault Refusal} {s t : State}
    (hpix : s.phase = .run → 4 * s.pix.toNat < s.len.toNat → pixel s = .next t → ExecCase i s t)
    (h : commandStep i.mode i.len pixel s = .next t) : ExecCase i s t := by
  unfold commandStep at h
  split at h
  · next hp => cases h; exact .accept hp
  · next hp =>
    split at h
    · next hl => exact hpix hp ((pixelLeft_iff s).1 hl) h
    · split at h
      · next ho => cases h; exact .finish hp ((passOver_iff s).1 ho)
      · cases h
  · next hp =>
    obtain ⟨hr, rfl⟩ | ⟨hr, rfl⟩ := respond_next h
    · exact .respond hp hr
    · exact .waitRespond hp hr

/-- Everything a command's step can do. -/
theorem exec_next {i : Instr} {s t : State} (h : exec i s = .next t) : ExecCase i s t := by
  cases i with
  | convNative len => exact commandStep_next (i := .convNative len) (fun hp hl => nativePixel_next hp hl) h
  | convSwapped len => exact commandStep_next (i := .convSwapped len) (fun hp hl => swappedPixel_next hp hl) h

/-- No step of a command writes `SRC`, the instance's byte order or what the environment will drive. -/
theorem exec_frame {i : Instr} {s t : State} (h : exec i s = .next t) :
    t.src = s.src ∧ t.nativeByteOrder = s.nativeByteOrder ∧ t.script = s.script ∧ t.steady = s.steady := by
  cases exec_next h with
  | accept => exact ⟨(accept_frame ..).1, (accept_frame ..).2.2.2⟩
  | _ => simp [nextPixel]

/-! ### What a step of the machine can do -/

theorem mapNext_next {f : State → State} {o : Host.Outcome State Fault Refusal} {t : State}
    (h : mapNext f o = .next t) : ∃ u, o = .next u ∧ t = f u := by
  cases o with
  | next u => exact ⟨u, rfl, by simpa [mapNext] using h.symm⟩
  | fault r => cases h
  | refused r => cases h

/-- The next states of a step, one case each: the reset edge, a wait for a command, a step of the command that is due. -/
theorem step_next {s t : State} (h : step s = .next t) :
    hostMisuse s = none ∧
      ((s.edge.rst = true ∧ t = endEdge s.edge (resetEdge s)) ∨
        (s.edge.rst = false ∧ s.due = none ∧ t = endEdge s.edge s) ∨
        (s.edge.rst = false ∧ ∃ i u, s.due = some i ∧ exec i s = .next u ∧ t = endEdge s.edge u)) := by
  unfold step at h
  split at h
  · cases h
  · next hm =>
    refine ⟨hm, ?_⟩
    split at h
    · next hr => exact .inl ⟨hr, by simpa using h.symm⟩
    · next hr =>
      have hr' : s.edge.rst = false := by simpa using hr
      split at h
      · next i hd =>
        obtain ⟨u, hu, rfl⟩ := mapNext_next h
        exact .inr (.inr ⟨hr', i, u, hd, hu, rfl⟩)
      · next hd => exact .inr (.inl ⟨hr', hd, by simpa using h.symm⟩)

/-- A block without a due command is idle. -/
theorem due_none_idle {s : State} (h : s.due = none) : s.phase = .idle := by
  unfold State.due at h
  split at h
  · assumption
  · cases h
  · cases h

/-- In phases `RUN` and `RESP` the due command is the one in progress. -/
theorem due_inProgress {s : State} (h : s.phase ≠ .idle) : s.due = some (.ofModeLen s.mode s.len) := by
  unfold State.due
  split
  · next hp => exact absurd hp h
  · rfl
  · rfl

@[simp] theorem mode_ofModeLen (m : Mode) (n : Len) : (Instr.ofModeLen m n).mode = m := by cases m <;> rfl

@[simp] theorem len_ofModeLen (m : Mode) (n : Len) : (Instr.ofModeLen m n).len = n := by cases m <;> rfl

end Sys2Proof.Machine
end

