-- ==== Sys2Proof/Laws/PerInstr.lean ====
section
/-!
SUPPORT. What holds of every command as syntax, one lemma for each constructor.
-/

namespace Sys2Proof

/-- The number of a command word: `MODE` in bit 31 above `LEN` (R44, R52). -/
theorem encode_toNat (i : Instr) : (encode i).toNat = 2 ^ 31 * i.mode.bit.toNat + i.len.toNat := by
  have h : (encode i).toNat = i.mode.bit.toNat <<< 31 ||| i.len.toNat := BitVec.toNat_append _ _
  rw [h, Nat.shiftLeft_eq, Nat.mul_comm, Nat.two_pow_add_eq_or_of_lt i.len.isLt]

end Sys2Proof

namespace Sys2Proof.Laws.EncodingFields

/-- The word of a command has the mode in bit 31 and the length in bits 30 to 0 (R44). -/
def Statement (i : Instr) : Prop :=
  (encode i).toNat / 2 ^ 31 = i.mode.bit.toNat ∧ (encode i).toNat % 2 ^ 31 = i.len.toNat

theorem of_toNat (i : Instr) : Statement i := by
  have h := encode_toNat i
  have hl := i.len.isLt
  constructor <;> omega

theorem convNative (len : Len) : Statement (.convNative len) := of_toNat _

theorem convSwapped (len : Len) : Statement (.convSwapped len) := of_toNat _

end Sys2Proof.Laws.EncodingFields
end

