-- ==== Sys2Proof/Laws/Run.lean ====
section
/-!
SUPPORT. Runs edge by edge: what one more edge adds, how runs follow one another, that `runEdges` is the host's run, and that
a step sees of the environment only what it drives at the coming edge.
-/

namespace Sys2Proof.Machine

@[simp] theorem runEdges_zero (s : State) : runEdges 0 s = .next s := rfl

@[simp] theorem trace_zero (s : State) : trace 0 s = [] := rfl

@[simp] theorem stepsTaken_zero (s : State) : stepsTaken 0 s = [] := rfl

theorem runEdges_succ {s t : State} (h : step s = .next t) (k : Nat) : runEdges (k + 1) s = runEdges k t := by
  rw [runEdges, h]

theorem trace_succ {s t : State} (h : step s = .next t) (k : Nat) :
    trace (k + 1) s = s.portEvent.toList ++ trace k t := by
  rw [trace, h]

theorem stepsTaken_succ {s t : State} (h : step s = .next t) (k : Nat) :
    stepsTaken (k + 1) s = s.completes.toList ++ stepsTaken k t := by
  rw [stepsTaken, h]

theorem runEdges_one (s : State) : runEdges 1 s = step s := by
  rw [runEdges]
  cases step s <;> rfl

/-- A longer run, from where the shorter one ends. -/
theorem runEdges_add_eq (j k : Nat) (s : State) :
    runEdges (j + k) s =
      match runEdges j s with
      | .next t => runEdges k t
      | .fault r => .fault r
      | .refused r => .refused r := by
  induction j generalizing s with
  | zero => rw [Nat.zero_add]; rfl
  | succ j ih =>
    rw [Nat.succ_add, runEdges, runEdges]
    cases step s with
    | next u => exact ih u
    | fault r => rfl
    | refused r => rfl

/-- A run that goes on after a run is one run. -/
theorem runEdges_add {j k : Nat} {s t : State} (h : runEdges j s = .next t) : runEdges (j + k) s = runEdges k t := by
  rw [runEdges_add_eq, h]

/-- The transactions of a run that goes on after a run. -/
theorem trace_add {j : Nat} {s t : State} (h : runEdges j s = .next t) (k : Nat) :
    trace (j + k) s = trace j s ++ trace k t := by
  induction j generalizing s with
  | zero => cases h; rw [Nat.zero_add]; rfl
  | succ j ih =>
    cases hs : step s with
    | next u =>
      rw [runEdges_succ hs] at h
      rw [Nat.succ_add, trace_succ hs, trace_succ hs, ih h, List.append_assoc]
    | fault r => rw [runEdges, hs] at h; cases h
    | refused r => rw [runEdges, hs] at h; cases h

/-- The steps completed in a run that goes on after a run. -/
theorem stepsTaken_add {j : Nat} {s t : State} (h : runEdges j s = .next t) (k : Nat) :
    stepsTaken (j + k) s = stepsTaken j s ++ stepsTaken k t := by
  induction j generalizing s with
  | zero => cases h; rw [Nat.zero_add]; rfl
  | succ j ih =>
    cases hs : step s with
    | next u =>
      rw [runEdges_succ hs] at h
      rw [Nat.succ_add, stepsTaken_succ hs, stepsTaken_succ hs, ih h, List.append_assoc]
    | fault r => rw [runEdges, hs] at h; cases h
    | refused r => rw [runEdges, hs] at h; cases h

theorem coreRun_next (M : Host.Core) {s t : M.State} (h : M.step s = .next t) (k : Nat) :
    Host.Core.run M (k + 1) s = Host.Core.run M k t := by
  rw [Host.Core.run, h]

theorem coreRun_fault (M : Host.Core) {s : M.State} {r : M.Fault} (h : M.step s = .fault r) (k : Nat) :
    Host.Core.run M (k + 1) s = .fault r := by
  rw [Host.Core.run, h]

theorem coreRun_refused (M : Host.Core) {s : M.State} {r : M.Refusal} (h : M.step s = .refused r) (k : Nat) :
    Host.Core.run M (k + 1) s = .refused r := by
  rw [Host.Core.run, h]

/-- The run of the model is the run of the host's interface. -/
theorem runEdges_eq_coreRun (k : Nat) (s : State) : runEdges k s = Host.Core.run Sys2Proof.core k s := by
  induction k generalizing s with
  | zero => rfl
  | succ k ih =>
    cases hs : step s with
    | next t => exact (runEdges_succ hs k).trans ((ih t).trans (coreRun_next Sys2Proof.core hs k).symm)
    | fault r => exact (by rw [runEdges, hs] : runEdges (k + 1) s = .fault r).trans (coreRun_fault Sys2Proof.core hs k).symm
    | refused r =>
      exact (by rw [runEdges, hs] : runEdges (k + 1) s = .refused r).trans (coreRun_refused Sys2Proof.core hs k).symm

/-! ### `State.withScript` -/

@[simp] theorem State.withScript_phase (s : State) (l : List Edge) : (s.withScript l).phase = s.phase := rfl
@[simp] theorem State.withScript_mode (s : State) (l : List Edge) : (s.withScript l).mode = s.mode := rfl
@[simp] theorem State.withScript_len (s : State) (l : List Edge) : (s.withScript l).len = s.len := rfl
@[simp] theorem State.withScript_pix (s : State) (l : List Edge) : (s.withScript l).pix = s.pix := rfl
@[simp] theorem State.withScript_status (s : State) (l : List Edge) : (s.withScript l).status = s.status := rfl
@[simp] theorem State.withScript_outLen (s : State) (l : List Edge) : (s.withScript l).outLen = s.outLen := rfl
@[simp] theorem State.withScript_stage (s : State) (l : List Edge) : (s.withScript l).stage = s.stage := rfl
@[simp] theorem State.withScript_nativeByteOrder (s : State) (l : List Edge) :
    (s.withScript l).nativeByteOrder = s.nativeByteOrder := rfl
@[simp] theorem State.withScript_src (s : State) (l : List Edge) : (s.withScript l).src = s.src := rfl
@[simp] theorem State.withScript_dst (s : State) (l : List Edge) : (s.withScript l).dst = s.dst := rfl
@[simp] theorem State.withScript_commands (s : State) (l : List Edge) : (s.withScript l).commands = s.commands := rfl
@[simp] theorem State.withScript_responses (s : State) (l : List Edge) : (s.withScript l).responses = s.responses := rfl
@[simp] theorem State.withScript_steady (s : State) (l : List Edge) : (s.withScript l).steady = s.steady := rfl
@[simp] theorem State.withScript_script (s : State) (l : List Edge) : (s.withScript l).script = l := rfl
@[simp] theorem State.withScript_withScript (s : State) (l l' : List Edge) :
    (s.withScript l).withScript l' = s.withScript l' := rfl
@[simp] theorem State.withScript_edge (s : State) (e : Edge) (l : List Edge) : (s.withScript (e :: l)).edge = e := rfl

/-! ### The environment's list -/

theorem mapNext_mapNext (f g : State → State) (o : Host.Outcome State Fault Refusal) :
    mapNext f (mapNext g o) = mapNext (fun t => f (g t)) o := by cases o <;> rfl

theorem readSource_withScript {s : State} {l : List Edge} (h : (s.withScript l).edge = s.edge) (k : Nat)
    (f : Byte → PixelStage) :
    readSource k f (s.withScript l) = mapNext (fun t => t.withScript l) (readSource k f s) := by
  unfold readSource
  rw [h]
  split <;> rfl

theorem writeTarget_withScript {s : State} {l : List Edge} (h : (s.withScript l).edge = s.edge) (w : DstWrite)
    (f : State → State) (hf : ∀ t : State, f (t.withScript l) = (f t).withScript l) :
    writeTarget w f (s.withScript l) = mapNext (fun t => t.withScript l) (writeTarget w f s) := by
  unfold writeTarget
  rw [h]
  split
  · exact congrArg Host.Outcome.next (hf (s.setDst (applyLanes s.dst w)))
  · rfl

theorem nativePixel_withScript {s : State} {l : List Edge} (h : (s.withScript l).edge = s.edge) :
    nativePixel (s.withScript l) = mapNext (fun t => t.withScript l) (nativePixel s) := by
  unfold nativePixel
  rw [show (s.withScript l).stage = s.stage from rfl]
  cases s.stage with
  | writeFirst r g b => exact writeTarget_withScript h _ _ (fun _ => rfl)
  | writeSecond r g b => rfl
  | _ => exact readSource_withScript h _ _

theorem swappedPixel_withScript {s : State} {l : List Edge} (h : (s.withScript l).edge = s.edge) :
    swappedPixel (s.withScript l) = mapNext (fun t => t.withScript l) (swappedPixel s) := by
  unfold swappedPixel
  rw [show (s.withScript l).stage = s.stage from rfl]
  cases s.stage with
  | writeFirst r g b => exact writeTarget_withScript h _ _ (fun _ => rfl)
  | writeSecond r g b => exact writeTarget_withScript h _ _ (fun _ => rfl)
  | _ => exact readSource_withScript h _ _

theorem commandStep_withScript {s : State} {l : List Edge} (h : (s.withScript l).edge = s.edge) (m : Mode) (n : Len)
    {pixel : State → Host.Outcome State Fault Refusal}
    (hp : pixel (s.withScript l) = mapNext (fun t => t.withScript l) (pixel s)) :
    commandStep m n pixel (s.withScript l) = mapNext (fun t => t.withScript l) (commandStep m n pixel s) := by
  have h1 : (s.withScript l).phase = s.phase := rfl
  have h2 : (s.withScript l).pixelLeft = s.pixelLeft := rfl
  have h3 : (s.withScript l).passOver = s.passOver := rfl
  simp only [commandStep, h1, h2, h3, hp, respond, h]
  cases s.phase with
  | idle => exact congrArg Host.Outcome.next (by unfold accept; split <;> rfl)
  | run => simp only; split <;> [rfl; split <;> rfl]
  | resp => simp only; split <;> rfl

/-- A command's step sees of the environment's list only what it drives at the coming edge. -/
theorem exec_withScript {s : State} {l : List Edge} (h : (s.withScript l).edge = s.edge) (i : Instr) :
    exec i (s.withScript l) = mapNext (fun t => t.withScript l) (exec i s) := by
  cases i with
  | convNative len => exact commandStep_withScript h _ _ (nativePixel_withScript h)
  | convSwapped len => exact commandStep_withScript h _ _ (swappedPixel_withScript h)

/-- A step takes one entry off the environment's list and does not see the others. -/
theorem step_withScript (s : State) (e : Edge) (l : List Edge) :
    step (s.withScript (e :: l)) = mapNext (fun t => t.withScript l) (step (s.withScript [e])) := by
  have h1 : hostMisuse (s.withScript (e :: l)) = hostMisuse (s.withScript [e]) := rfl
  have h2 : (s.withScript (e :: l)).due = (s.withScript [e]).due := rfl
  have h3 : (s.withScript (e :: l)).edge = e := rfl
  have h4 : (s.withScript [e]).edge = e := rfl
  simp only [step, h1, h2, h3, h4]
  cases hostMisuse (s.withScript [e]) with
  | some r => rfl
  | none =>
    simp only
    split
    · rfl
    · cases (s.withScript [e]).due with
      | none => rfl
      | some i =>
        simp only [← State.withScript_withScript s [e] (e :: l), exec_withScript (s := s.withScript [e]) (l := e :: l) rfl i,
          mapNext_mapNext]
        rfl

/-- A step takes the first entry off the environment's list. -/
theorem step_script {s t : State} (h : step s = .next t) : t.script = s.script.tail := by
  obtain ⟨-, ⟨-, rfl⟩ | ⟨-, -, rfl⟩ | ⟨-, i, u, -, hu, rfl⟩⟩ := step_next h
  · rfl
  · rfl
  · rw [endEdge_eq]; exact congrArg List.tail (exec_frame hu).2.2.1

/-! ### A run in an environment -/

/-- A run over the entries `l` does not see the entries after them. -/
theorem runEdges_withScript (l l' : List Edge) (s : State) :
    runEdges l.length (s.withScript (l ++ l')) =
        mapNext (fun t => t.withScript l') (runEdges l.length (s.withScript l)) ∧
      trace l.length (s.withScript (l ++ l')) = trace l.length (s.withScript l) ∧
      stepsTaken l.length (s.withScript (l ++ l')) = stepsTaken l.length (s.withScript l) := by
  induction l generalizing s with
  | nil => exact ⟨rfl, rfl, rfl⟩
  | cons e l ih =>
    have h1 := step_withScript s e (l ++ l')
    have h2 := step_withScript s e l
    have h3 : (s.withScript (e :: (l ++ l'))).portEvent = (s.withScript (e :: l)).portEvent := rfl
    have h4 : (s.withScript (e :: (l ++ l'))).completes = (s.withScript (e :: l)).completes := rfl
    simp only [List.length_cons, List.cons_append, runEdges, trace, stepsTaken, h1, h2, h3, h4]
    cases step (s.withScript [e]) with
    | next u => simp only [mapNext, ih u, and_self]
    | fault r => simp only [mapNext, and_self]
    | refused r => simp only [mapNext, and_self]

theorem State.under_eq (s : State) (env : Nat → Edge) (k : Nat) :
    s.under env k = s.withScript ((List.range k).map env) := rfl

theorem State.under_succ (s : State) (env : Nat → Edge) (k : Nat) :
    s.under env (k + 1) = s.withScript ((List.range k).map env ++ [env k]) := by
  rw [State.under_eq, List.range_succ, List.map_append]
  rfl

/-- A run over the first `k` edges of an environment does not see the next one. -/
theorem run_under_longer (s : State) (env : Nat → Edge) (k : Nat) :
    runEdges k (s.under env (k + 1)) = mapNext (fun t => t.withScript [env k]) (runEdges k (s.under env k)) ∧
      trace k (s.under env (k + 1)) = trace k (s.under env k) ∧
      stepsTaken k (s.under env (k + 1)) = stepsTaken k (s.under env k) := by
  have h := runEdges_withScript ((List.range k).map env) [env k] s
  rwa [List.length_map, List.length_range, ← State.under_succ, ← State.under_eq] at h

/-- One more edge in an environment: what happens at edge `k` after the run over the edges before it. -/
theorem run_under_succ {s t : State} {env : Nat → Edge} {k : Nat} (h : runEdges k (s.under env k) = .next t) :
    runEdges (k + 1) (s.under env (k + 1)) = step (t.withScript [env k]) ∧
      trace (k + 1) (s.under env (k + 1)) = trace k (s.under env k) ++ (t.withScript [env k]).portEvent.toList ∧
      stepsTaken (k + 1) (s.under env (k + 1)) =
        stepsTaken k (s.under env k) ++ (t.withScript [env k]).completes.toList := by
  obtain ⟨h1, h2, h3⟩ := run_under_longer s env k
  have hk : runEdges k (s.under env (k + 1)) = .next (t.withScript [env k]) := by rw [h1, h]; rfl
  rw [runEdges_add hk, runEdges_one, trace_add hk, stepsTaken_add hk, h2, h3]
  refine ⟨rfl, congrArg _ ?_, congrArg _ ?_⟩
  · rw [trace]; cases step (t.withScript [env k]) <;> simp
  · rw [stepsTaken]; cases step (t.withScript [env k]) <;> simp

/-- A run of one more edge has a run before it. -/
theorem run_under_pred {s u : State} {env : Nat → Edge} {k : Nat} (h : runEdges (k + 1) (s.under env (k + 1)) = .next u) :
    ∃ t, runEdges k (s.under env k) = .next t ∧ step (t.withScript [env k]) = .next u := by
  rw [runEdges_add_eq, (run_under_longer s env k).1] at h
  cases hk : runEdges k (s.under env k) with
  | next t => exact ⟨t, rfl, by rw [hk] at h; simpa [mapNext, runEdges_one] using h⟩
  | fault r => rw [hk] at h; cases h
  | refused r => rw [hk] at h; cases h

end Sys2Proof.Machine
end

