-- ==== Sys2Proof/Tests/Slice0.lean ====
section
/-!
SUPPORT. Tests against the spec's own examples (95_test_vectors.md, and the worked examples of the rules), and for each
statement of Certificates/Slice0/Obligations.lean that has hypotheses a state and operands that meet them.
-/

namespace Sys2Proof.Machine.Tests

/-! ### Small states -/

/-- `SRC` of the tests: the pixels `[0xAB, 0xCD, 0xEF, 0x01]` and `[8, 4, 8, 0]` (95, 2.5). -/
def srcBytes : Memory :=
  [(0, 0xAB), (1, 0xCD), (2, 0xEF), (3, 0x01), (4, 8), (5, 4), (6, 8)]

/-- `DST` of the tests: six bytes of the poison `0xEE` (95, section 3). -/
def poison : Memory := [(0, 0xEE), (1, 0xEE), (2, 0xEE), (3, 0xEE), (4, 0xEE), (5, 0xEE)]

/-- An idle block whose host offers the words `cs`. -/
def idleState (o : ByteOrder) (cs : List CmdWord) (es : List Edge) : State where
  phase := .idle
  mode := .packedNative
  len := 0
  pix := 0
  status := 0
  outLen := 0
  stage := .readRed
  nativeByteOrder := o
  src := srcBytes
  dst := poison
  commands := cs
  responses := []
  script := es
  steady := .ready

/-- A block in phase `RUN` with an 8-byte command of mode `m`, at pixel `i`. -/
def runState (m : Mode) (o : ByteOrder) (i : PixIndex) (g : PixelStage) (es : List Edge) : State :=
  { idleState o [] es with phase := .run, mode := m, len := 8, pix := i, outLen := 4, stage := g }

/-- A block that offers the response to a command of length `n`. -/
def respState (n : Len) (c : StatusCode) (out : OutLen) (i : PixIndex) (es : List Edge) : State :=
  { idleState .little [] es with phase := .resp, len := n, status := c, outLen := out, pix := i }

/-- An edge at which nothing is answered. -/
def stall : Edge := { Edge.quiet with cmdHold := true }

/-- An edge with `rst` = 1. -/
def rstEdge : Edge := { stall with rst := true }

/-- The next state, if there is one. -/
def next? : Host.Outcome State Fault Refusal → Option State
  | .next t => some t
  | .fault _ => none
  | .refused _ => none

/-! ### Well-formedness and encoding -/

/-- R46: a length of 2^31 does not fit; R48: the largest one that fits is well formed. -/
theorem test_wellFormed_refuses_wide_length :
    (CommandLine.mk .packedNative 2147483648).wellFormed = false ∧
      (CommandLine.mk .packedNative 2147483647).wellFormed = true := by decide

/-- 95, 2.6: `CONV_NATIVE 16` and `CONV_SWAPPED 16`, bit by bit from R44. -/
theorem test_decode_words :
    decodeTableWord 32 0b00000000000000000000000000010000 = some (.convNative 16) ∧
      decodeTableWord 32 0b10000000000000000000000000010000 = some (.convSwapped 16) := by decide

/-- R49: nothing but 32 bits is a command. -/
theorem test_decode_refuses_other_sizes :
    decodeBits 16 4 = .error (.notOneWord 16) ∧ decodeTableWord 64 4 = none := by decide

/-- R52: a length that does not fit, a missing number and a wrong digit are no command. -/
theorem test_assemble_refuses :
    assembleLine ['C', 'O', 'N', 'V', '_', 'N', 'A', 'T', 'I', 'V', 'E', ' ', '2', '1', '4', '7', '4', '8', '3', '6', '4', '8'] =
        none ∧
      assembleLine ['C', 'O', 'N', 'V', '_', 'N', 'A', 'T', 'I', 'V', 'E', ' '] = none ∧
      assembleLine ['C', 'O', 'N', 'V', '_', 'N', 'A', 'T', 'I', 'V', 'E', ' ', '1', 'F'] = none := by decide

/-- 95, program 3: two of its lines, one in hexadecimal (R52). -/
theorem test_assemble_program :
    assemble [['C', 'O', 'N', 'V', '_', 'N', 'A', 'T', 'I', 'V', 'E', ' ', '5'],
      ['C', 'O', 'N', 'V', '_', 'S', 'W', 'A', 'P', 'P', 'E', 'D', ' ', '0', 'x', '8']] =
      some [0x00000005#32, 0x80000008#32] := by decide

/-! ### The datapath -/

/-- 95, 2.1 and 2.2: the corners of the truncator. -/
theorem test_trunc_corners :
    trunc 7 3 7 = ⟨0, 0, 0⟩ ∧ trunc 8 4 8 = ⟨1, 1, 1⟩ ∧ trunc 247 251 248 = ⟨30, 62, 31⟩ ∧ trunc 255 255 255 = ⟨31, 63, 31⟩ := by
  decide

/-- 95, 2.3. -/
theorem test_packers :
    packNative ⟨21, 51, 29⟩ = 0xAE7D#16 ∧ packSwapped ⟨21, 51, 29⟩ = 0xEE75#16 ∧
      packNative ⟨1, 0, 0⟩ = 0x0800#16 ∧ packSwapped ⟨1, 0, 0⟩ = 0x0001#16 ∧ packNative ⟨0, 63, 31⟩ = 0x07FF#16 := by decide

/-- 95, 2.4. -/
theorem test_serializer :
    serialize 0x1234#16 .big = (0x12#8, 0x34#8) ∧ serialize 0x1234#16 .little = (0x34#8, 0x12#8) := by decide

/-- 95, 2.8: the wire values of the port writes. -/
theorem test_port_writes :
    nativeWrite .little 0 0xAB 0xCD 0xEF = ⟨0, 0b11#2, 0xAE7D#16⟩ ∧
      nativeWrite .big 0 0xAB 0xCD 0xEF = ⟨0, 0b11#2, 0x7DAE#16⟩ ∧
      swappedFirstWrite 0 0xAB 0xCD 0xEF = ⟨0, 0b01#2, 0x00EE#16⟩ ∧
      swappedSecondWrite 0 0xAB 0xCD 0xEF = ⟨0, 0b10#2, 0x7500#16⟩ := by decide

/-- 95, program 4: the reference function on two of its pixels, both modes. -/
theorem test_conv :
    conv .bigEndianSwapped .little [0x12, 0x34, 0x56, 0x78, 0xAB, 0xCD, 0xEF, 0x01] = .ok [0x51, 0xA2, 0xEE, 0x75] ∧
      conv .packedNative .little [0x12, 0x34, 0x56, 0x78, 0xAB, 0xCD, 0xEF, 0x01] = .ok [0xAA, 0x11, 0x7D, 0xAE] := by
  decide

/-! ### One step -/

/-- 95, program 1: the first step after reset takes the word the host hands over (log 6). -/
theorem test_first_command_after_reset :
    (next? (step (State.reset.withFetchWord 32 0x80000010))).map (fun t => (t.phase, t.mode, t.len, t.outLen)) =
      some (.run, .bigEndianSwapped, 16, 8) := by decide

/-- 95, program 1: the accept of `CONV_SWAPPED 16`. -/
theorem test_accept_swapped :
    (next? (step (idleState .little [0x80000010#32] []))).map
        (fun t => (t.phase, t.mode, t.len, t.pix, t.status, t.outLen)) =
      some (.run, .bigEndianSwapped, 16, 0, 0, 8) := by decide

/-- 95, program 3: the accept of `CONV_NATIVE 5`. -/
theorem test_accept_invalid_length :
    (next? (step (idleState .little [0x00000005#32] []))).map
        (fun t => (t.phase, t.len, t.status, t.outLen, t.rspWord)) =
      some (.resp, 5, 1, 0, 0x40000000#32) := by decide

/-- 95, 2.8: the native write of pixel 0, `LE`. -/
theorem test_native_write_little :
    (next? (step (runState .packedNative .little 0 (.writeFirst 0xAB 0xCD 0xEF) []))).map
        (fun t => (t.pix, Memory.read t.dst 0, Memory.read t.dst 1, Memory.read t.dst 2)) =
      some (1, 0x7D, 0xAE, 0xEE) := by decide

/-- 95, 2.8: the native write of pixel 0, `BE`. -/
theorem test_native_write_big :
    (next? (step (runState .packedNative .big 0 (.writeFirst 0xAB 0xCD 0xEF) []))).map
        (fun t => (t.pix, Memory.read t.dst 0, Memory.read t.dst 1, Memory.read t.dst 2)) =
      some (1, 0xAE, 0x7D, 0xEE) := by decide

/-- 95, 2.8: the first write of a swapped pixel. -/
theorem test_swapped_first_write :
    (next? (step (runState .bigEndianSwapped .little 0 (.writeFirst 0xAB 0xCD 0xEF) []))).map
        (fun t => (t.pix, Memory.read t.dst 0, Memory.read t.dst 1)) =
      some (0, 0xEE, 0xEE) := by decide

/-- 95, 2.5 and program 3: the second write of the pixel `[8, 4, 8, 0]` at pixel 1. -/
theorem test_swapped_second_write :
    (next? (step (runState .bigEndianSwapped .little 1 (.writeSecond 8 4 8) []))).map
        (fun t => (t.pix, Memory.read t.dst 2, Memory.read t.dst 3)) =
      some (2, 0xEE, 0x21) := by decide

/-- R107: a reset between the two writes of a swapped pixel leaves the first byte written and the second one old. -/
theorem test_reset_between_writes :
    (next? (step ((runState .bigEndianSwapped .little 0 (.writeSecond 8 4 8) [rstEdge]).setDst [(0, 0x08), (1, 0xEE)]))).map
        (fun t => (t.phase, t.pix, Memory.read t.dst 0, Memory.read t.dst 1, t.responses)) =
      some (.idle, 0, 0x08, 0xEE, []) := by decide

/-- 95, program 1: the response of a 16-byte command is handed over and the block is idle. -/
theorem test_respond :
    (next? (step (respState 16 0 8 4 []))).map (fun t => (t.phase, t.responses)) = some (.idle, [0x00000008#32]) := by decide

/-! ### Witnesses: states and operands that meet the hypotheses of the statements -/

theorem witness_EveryWordMatchesOneRow :
    (opcodeRows.head?.map (fun r => r.covers 0x7FFFFFFF#32)) = some true ∧
      (opcodeRows.getLast?.map (fun r => r.covers 0x80000000#32)) = some true := by decide

theorem witness_DecodeOfEncode : (Instr.convSwapped 0x7FFFFFFF#31).wellFormed = true := by decide

theorem witness_AssembledWord :
    parseLine (mnemonicChars .packedNative ++ [' ', '2', '1', '4', '7', '4', '8', '3', '6', '4', '7']) =
        some ⟨.packedNative, 2 ^ 31 - 1⟩ ∧
      parseLine (mnemonicChars .bigEndianSwapped ++ [' ', '0', 'x', '8', '0', '0', '0', '0', '0', '0', '0']) =
        some ⟨.bigEndianSwapped, 2 ^ 31⟩ := by decide

theorem witness_TruncationLaw : (7#8).toNat ≤ (8#8).toNat ∧ (3#8).toNat ≤ (4#8).toNat := by decide

theorem witness_WritePrimitives : (2 : Nat) ≠ (0#30).toNat ∧ (2 : Nat) ≠ (0#30).toNat + 1 := by decide

theorem witness_PackersLoseNothing : packNative ⟨31, 63, 31⟩ = 0xFFFF#16 ∧ packSwapped ⟨31, 0, 0⟩ = 0x001F#16 := by decide

theorem runState_RegInv (m : Mode) (o : ByteOrder) (es : List Edge) : RegInv (runState m o 1 .readRed es) := by
  constructor <;> simp [runState, idleState]

theorem second_RegInv (o : ByteOrder) (es : List Edge) :
    RegInv (runState .bigEndianSwapped o 1 (.writeSecond 8 4 8) es) := by
  constructor <;> simp [runState, idleState]

theorem respState_RegInv (es : List Edge) : RegInv (respState 8 0 4 2 es) := by
  constructor <;> simp [respState, idleState]

theorem errorState_RegInv (es : List Edge) : RegInv (respState 5 1 0 0 es) := by
  constructor <;> simp [respState, idleState]

theorem witness_RequestsInBounds :
    RegInv (runState .bigEndianSwapped .big 1 .readRed []) ∧
      (runState .bigEndianSwapped .big 1 .readRed []).srcRequest = some 4 ∧
      RegInv (runState .bigEndianSwapped .big 1 (.writeSecond 8 4 8) []) ∧
      (runState .bigEndianSwapped .big 1 (.writeSecond 8 4 8) []).dstRequest = some ⟨2, 2, 0x2100⟩ ∧
      RegInv (respState 8 0 4 2 []) ∧ (respState 8 0 4 2 []).phase ≠ .run :=
  ⟨runState_RegInv .., by decide, second_RegInv .., by decide, respState_RegInv _, by decide⟩

theorem witness_RequestHeldUntilAcknowledged :
    (∃ t, step (runState .packedNative .big 1 .readRed [stall]) = .next t) ∧
      (runState .packedNative .big 1 .readRed [stall]).srcRequest = some 4 ∧
      (runState .packedNative .big 1 .readRed [stall]).edge.srcAck = false ∧
      (∃ t, step (runState .packedNative .big 1 (.writeFirst 8 4 8) [stall]) = .next t) ∧
      (runState .packedNative .big 1 (.writeFirst 8 4 8) [stall]).dstRequest = some ⟨2, 3, 0x2108⟩ ∧
      (runState .packedNative .big 1 (.writeFirst 8 4 8) [stall]).edge.dstAck = false ∧
      (runState .packedNative .big 1 .readRed [stall]).edge.rst = false :=
  ⟨⟨_, rfl⟩, by decide, by decide, ⟨_, rfl⟩, by decide, by decide, by decide⟩

theorem witness_AcknowledgeWithoutRequestIgnored :
    (runState .packedNative .big 1 (.writeFirst 8 4 8) [stall]).script = stall :: [] ∧
      (runState .packedNative .big 1 (.writeFirst 8 4 8) [stall]).srcRequest = none ∧
      (runState .packedNative .big 1 .readRed [stall]).dstRequest = none := by decide

theorem witness_ResetWinsOverEveryStep :
    (runState .bigEndianSwapped .big 1 (.writeSecond 8 4 8) [rstEdge]).edge.rst = true ∧
      (respState 5 1 0 0 [rstEdge]).edge.rst = true := by decide

theorem witness_AcceptStep :
    (idleState .big [0x7FFFFFFC#32] []).phase = .idle ∧ (Instr.convNative 0x7FFFFFFC#31).len.toNat % 4 = 0 ∧
      (Instr.convSwapped 0x7FFFFFFF#31).len.toNat % 4 ≠ 0 := by decide

theorem witness_AcknowledgedReads :
    (runState .packedNative .big 1 .readRed []).phase = .run ∧
      4 * (runState .packedNative .big 1 .readRed []).pix.toNat < (runState .packedNative .big 1 .readRed []).len.toNat ∧
      (runState .packedNative .big 1 .readRed []).edge.srcAck = true ∧
      (runState .packedNative .big 1 (.readGreen 8) []).edge.srcAck = true ∧
      (runState .packedNative .big 1 (.readBlue 8 4) []).edge.srcAck = true := by decide

theorem witness_NativePixelWrite :
    (runState .packedNative .little 1 (.writeFirst 8 4 8) []).phase = .run ∧
      4 * (runState .packedNative .little 1 (.writeFirst 8 4 8) []).pix.toNat < 8 ∧
      (runState .packedNative .little 1 (.writeFirst 8 4 8) []).edge.dstAck = true ∧
      (runState .packedNative .little 1 (.writeFirst 8 4 8) []).nativeByteOrder = .little ∧
      (runState .packedNative .big 1 (.writeFirst 8 4 8) []).edge.dstAck = true ∧
      (runState .packedNative .big 1 (.writeFirst 8 4 8) []).nativeByteOrder = .big := by decide

theorem witness_SwappedFirstByteWrite :
    (runState .bigEndianSwapped .little 1 (.writeFirst 8 4 8) []).phase = .run ∧
      4 * (runState .bigEndianSwapped .little 1 (.writeFirst 8 4 8) []).pix.toNat < 8 ∧
      (runState .bigEndianSwapped .little 1 (.writeFirst 8 4 8) []).edge.dstAck = true := by decide

theorem witness_SwappedSecondByteWrite :
    (runState .bigEndianSwapped .little 1 (.writeSecond 8 4 8) []).phase = .run ∧
      4 * (runState .bigEndianSwapped .little 1 (.writeSecond 8 4 8) []).pix.toNat < 8 ∧
      (runState .bigEndianSwapped .little 1 (.writeSecond 8 4 8) []).edge.dstAck = true := by decide

theorem witness_UnacknowledgedTransactionWaits :
    (runState .bigEndianSwapped .little 1 .readRed [stall]).phase = .run ∧
      4 * (runState .bigEndianSwapped .little 1 .readRed [stall]).pix.toNat < 8 ∧
      (runState .bigEndianSwapped .little 1 .readRed [stall]).edge.srcAck = false ∧
      (runState .bigEndianSwapped .little 1 (.writeSecond 8 4 8) [stall]).edge.dstAck = false ∧
      (Instr.convSwapped 8).mode = .bigEndianSwapped := by decide

theorem witness_FinishStep :
    (runState .packedNative .little 2 .readRed []).phase = .run ∧
      4 * (runState .packedNative .little 2 .readRed []).pix.toNat = (runState .packedNative .little 2 .readRed []).len.toNat := by
  decide

theorem witness_RespondStep :
    (respState 8 0 4 2 []).phase = .resp ∧ (respState 8 0 4 2 []).edge.rspReady = true ∧
      (respState 8 0 4 2 [stall]).edge.rspReady = false := by decide

theorem witness_FaultsWhereNoStepIsEnabled :
    (runState .packedNative .little 3 .readRed []).phase = .run ∧
      (runState .packedNative .little 3 .readRed []).len.toNat < 4 * (runState .packedNative .little 3 .readRed []).pix.toNat ∧
      4 * (runState .packedNative .little 1 (.writeSecond 8 4 8) []).pix.toNat < 8 := by decide

theorem witness_TransactionsMakeThePixelStep :
    (runState .packedNative .little 1 .readRed []).phase = .run ∧
      4 * (runState .packedNative .little 1 .readRed []).pix.toNat < 8 ∧
      (runState .packedNative .little 1 .readRed []).stage = .readRed ∧
      (runState .packedNative .little 1 .readRed []).script = [] ∧
      (runState .packedNative .little 1 .readRed []).steady = .ready ∧
      (runState .packedNative .little 1 .readRed []).mode = .packedNative ∧
      (runState .bigEndianSwapped .little 1 .readRed []).mode = .bigEndianSwapped := by decide

theorem witness_StepRunsOfferedCommand :
    (idleState .little [0x80000010#32] []).phase = .idle ∧
      (idleState .little [0x80000010#32] []).commands = 0x80000010#32 :: [] ∧
      (idleState .little [0x80000010#32] []).edge.rst = false ∧
      (idleState .little [0x80000010#32] []).edge.cmdHold = false := by decide

theorem witness_StepRunsCommandInProgress :
    (runState .packedNative .little 1 .readRed []).phase ≠ .idle ∧
      (runState .packedNative .little 1 .readRed []).edge.rst = false ∧
      hostMisuse (runState .packedNative .little 1 .readRed []) = none ∧ (respState 8 0 4 2 []).phase ≠ .idle ∧
      hostMisuse (respState 8 0 4 2 []) = none := by decide

theorem witness_IdleBlockWaits :
    (idleState .little [0x80000010#32] [stall]).phase = .idle ∧
      (idleState .little [0x80000010#32] [stall]).edge.rst = false ∧
      (idleState .little [0x80000010#32] [stall]).cmdValid = false ∧ (idleState .little [] []).cmdValid = false := by decide

/-- The host's writes just below and just at the two bounds. -/
theorem witness_HostProhibitionsRefused :
    (runState .packedNative .little 1 .readRed [{ stall with srcWrites := [(7, 1)] }]).phase ≠ .idle ∧
      hostMisuse (runState .packedNative .little 1 .readRed [{ stall with srcWrites := [(7, 1)] }]) = some .sourceChanged ∧
      hostMisuse (runState .packedNative .little 1 .readRed [{ stall with dstWrites := [(3, 1)] }]) = some .targetTouched ∧
      hostMisuse (runState .packedNative .little 1 .readRed [{ stall with srcWrites := [(8, 1)], dstWrites := [(4, 1)] }]) =
        none := by decide

theorem witness_PhaseTransitions :
    (next? (step (idleState .little [0x00000004#32] []))).map State.phase = some .run ∧
      (next? (step (idleState .little [0x80000003#32] []))).map State.phase = some .resp ∧
      (next? (step (runState .packedNative .little 2 .readRed []))).map State.phase = some .resp ∧
      (next? (step (respState 8 0 4 2 []))).map State.phase = some .idle ∧
      (next? (step (runState .packedNative .little 1 .readRed [rstEdge]))).map State.phase = some .idle := by decide

theorem witness_NoTimeout :
    stall.undisturbed ∧ stall.cmdHold = true ∧ stall.rspReady = false ∧ stall.srcAck = false ∧ stall.dstAck = false ∧
      RegInv (runState .packedNative .little 1 .readRed [stall, stall]) ∧
      4 * (runState .packedNative .little 1 .readRed [stall, stall]).pix.toNat < 8 ∧
      (runState .packedNative .little 1 .readRed [stall, stall]).script = List.replicate 2 stall ++ [] :=
  ⟨⟨rfl, rfl, rfl⟩, rfl, rfl, rfl, rfl, runState_RegInv .., by decide, rfl⟩

/-- The pixel `[0xAB, 0xCD, 0xEF, 0x01]` converted, pixel 1 half written (95, 2.5). -/
def halfWritten : State :=
  (runState .bigEndianSwapped .little 1 (.writeSecond 8 4 8) []).setDst [(0, 0xEE), (1, 0x75), (2, 0x08), (3, 0xEE)]

theorem halfWritten_RegInv : RegInv halfWritten := by constructor <;> simp [halfWritten, runState, idleState]

theorem halfWritten_ConvInv : ConvInv halfWritten := by
  refine ⟨⟨rfl, rfl, rfl⟩, fun _ i hi => ?_, fun _ _ _ _ => by decide⟩
  have h1 : i < 1 := hi
  have : i = 0 := by omega
  subst this
  unfold State.pixelWritten
  decide

theorem witness_StepKeepsRegInv : RegInv halfWritten ∧ ∃ t, step halfWritten = .next t := ⟨halfWritten_RegInv, _, rfl⟩

theorem witness_StepKeepsMemInv : MemInv halfWritten ∧ ∃ t, step halfWritten = .next t :=
  ⟨⟨rfl, rfl, rfl, rfl⟩, _, rfl⟩

theorem witness_StepKeepsConvInv : RegInv halfWritten ∧ ConvInv halfWritten ∧ ∃ t, step halfWritten = .next t :=
  ⟨halfWritten_RegInv, halfWritten_ConvInv, _, rfl⟩

theorem witness_NothingElseFails : RegInv halfWritten ∧ hostMisuse halfWritten = none := ⟨halfWritten_RegInv, rfl⟩

theorem witness_ResponseWords :
    RegInv (respState 8 0 4 2 []) ∧ (respState 8 0 4 2 []).rspValid = true ∧ RegInv (respState 5 1 0 0 []) ∧
      (respState 5 1 0 0 []).rspValid = true :=
  ⟨respState_RegInv _, rfl, errorState_RegInv _, rfl⟩

/-- The byte just above the target, and a byte below it while no pass is made. -/
theorem witness_StepFrame :
    RegInv halfWritten ∧ (∃ t, step halfWritten = .next t) ∧ halfWritten.len.toNat / 2 ≤ 4 ∧
      halfWritten.edge.dstWrites = [] ∧ RegInv (respState 8 0 4 2 []) ∧ (respState 8 0 4 2 []).phase ≠ .run :=
  ⟨halfWritten_RegInv, ⟨_, rfl⟩, by decide, rfl, respState_RegInv _, by decide⟩

theorem witness_NoCarryOverBetweenCommands : (idleState .little [0x80000010#32] []).phase = .idle := rfl

theorem witness_PaddingByteIgnored (a : Nat) (h : a % 4 ≠ 3) :
    Memory.read [(0, 0xAB), (1, 0xCD), (2, 0xEF), (3, 0x99)] a = Memory.read [(0, 0xAB), (1, 0xCD), (2, 0xEF), (3, 0x01)] a := by
  have h3 : ¬3 = a := fun e => h (by omega)
  simp only [Memory.read, if_neg h3]

theorem witness_ReferenceFunction :
    ([1, 2, 3, 4, 5] : List Byte).length % 4 ≠ 0 ∧ ([1, 2, 3, 4] : List Byte).length % 4 = 0 ∧
      0 < ([1, 2, 3, 4] : List Byte).length / 4 ∧ ([1, 2, 3, 4] : List Byte)[4 * 0 + 2]? = some 3 := by decide

theorem witness_ConversionIsLocal :
    conv .bigEndianSwapped .little [0x12, 0x34, 0x56, 0x78] = .ok [0x51, 0xA2] ∧
      conv .bigEndianSwapped .little [0xAB, 0xCD, 0xEF, 0x01] = .ok [0xEE, 0x75] := by decide

/-- An edge at which everything is supplied, and the host writes one byte of each buffer at offset 2^29. -/
def supply : Edge :=
  { Edge.quiet with rspReady := true, srcAck := true, dstAck := true, srcWrites := [(536870912, 1)], dstWrites := [(536870912, 1)] }

/-- An environment that stalls at every other edge. -/
def haltingEnv (j : Nat) : Edge := if j % 2 = 0 then stall else supply

theorem haltingEnv_odd (k : Nat) : haltingEnv (2 * k + 1) = supply := by
  rw [haltingEnv, if_neg (by omega)]

theorem haltingEnv_spares {n : Nat} (h : n ≤ 2 ^ 29) (j : Nat) : (haltingEnv j).spares n := by
  unfold haltingEnv
  split
  · exact ⟨rfl, fun c hc => absurd hc (by simp [stall, Edge.quiet]), fun c hc => absurd hc (by simp [stall, Edge.quiet])⟩
  · refine ⟨rfl, fun c hc => ?_, fun c hc => ?_⟩ <;> simp only [supply, List.mem_singleton] at hc <;> subst hc
    · exact h
    · exact (Nat.div_le_self n 2).trans h

theorem haltingEnv_answers (s : State) : s.answeredBy haltingEnv := by
  intro k t _ _
  refine ⟨fun _ => ?_, fun _ => ?_, fun _ => ?_, fun _ => ?_⟩ <;>
    exact ⟨2 * k + 1, by omega, by rw [haltingEnv_odd]; rfl⟩

theorem witness_CommandComputesConv :
    (idleState .little [0x80000008#32] []).phase = .idle ∧
      (idleState .little [0x80000008#32] []).commands = 0x80000008#32 :: [] ∧
      (∀ j, (haltingEnv j).spares (decodeWord 0x80000008#32).len.toNat) ∧
      (idleState .little [0x80000008#32] []).answeredBy haltingEnv ∧
      conv .bigEndianSwapped .little (Memory.bytes srcBytes 8) = .ok [0xEE, 0x75, 0x08, 0x21] ∧
      conv .bigEndianSwapped .little (Memory.bytes srcBytes 5) = .error .invalidInputLength :=
  ⟨rfl, rfl, haltingEnv_spares (by decide), haltingEnv_answers _, by decide, by decide⟩

/-- An environment that supplies everything at every edge, and in which the host writes nothing. -/
def readyEnv (_ : Nat) : Edge := { supply with srcWrites := [], dstWrites := [] }

theorem readyEnv_spares (n j : Nat) : (readyEnv j).spares n :=
  ⟨rfl, fun c hc => absurd hc (by simp [readyEnv]), fun c hc => absurd hc (by simp [readyEnv])⟩

theorem witness_CommandComputesConv_no_writes :
    (∀ j, (readyEnv j).spares 8) ∧ (∀ j, (readyEnv j).srcWrites = []) ∧ (∀ j, (readyEnv j).dstWrites = []) ∧
      (idleState .little [0x80000008#32] []).answeredBy readyEnv :=
  ⟨readyEnv_spares 8, fun _ => rfl, fun _ => rfl, fun k _ _ _ => ⟨fun _ => ⟨k, le_rfl, rfl⟩, fun _ => ⟨k, le_rfl, rfl⟩, fun _ => ⟨k, le_rfl, rfl⟩,
      fun _ => ⟨k, le_rfl, rfl⟩⟩⟩

theorem witness_CommandStepCount :
    (idleState .little [0x80000008#32] []).phase = .idle ∧
      (∀ j, (haltingEnv j).spares (decodeWord 0x80000008#32).len.toNat) ∧
      (idleState .little [0x80000008#32] []).answeredBy haltingEnv ∧
      (decodeWord 0x80000008#32).len.toNat % 4 = 0 ∧ (decodeWord 0x00000005#32).len.toNat % 4 ≠ 0 :=
  ⟨rfl, haltingEnv_spares (by decide), haltingEnv_answers _, by decide, by decide⟩

theorem witness_CommandPortTrace :
    (idleState .little [0x00000004#32] []).phase = .idle ∧
      (∀ j, (haltingEnv j).spares (decodeWord 0x00000004#32).len.toNat) ∧
      (idleState .little [0x00000004#32] []).answeredBy haltingEnv ∧
      (decodeWord 0x00000004#32).len.toNat % 4 = 0 ∧ (decodeWord 0x80000003#32).len.toNat % 4 ≠ 0 :=
  ⟨rfl, haltingEnv_spares (by decide), haltingEnv_answers _, by decide, by decide⟩

theorem witness_EmptyCommand :
    (idleState .little [0x80000000#32] []).phase = .idle ∧
      (idleState .little [0x80000000#32] []).commands = 0x80000000#32 :: [] ∧
      (idleState .little [0x00000000#32] []).commands = 0x00000000#32 :: [] ∧ (∀ j, (haltingEnv j).rst = false) ∧
      (idleState .little [0x80000000#32] []).answeredBy haltingEnv :=
  ⟨rfl, rfl, rfl, fun j => (haltingEnv_spares (Nat.zero_le _) j).1, haltingEnv_answers _⟩

/-- The prefix 0, four edges on: the command is accepted, its first byte read. -/
theorem witness_UnfinishedTargetIsPrefix :
    (decodeWord 0x80000008#32).len.toNat % 4 = 0 ∧ (∀ j, (haltingEnv j).spares (decodeWord 0x80000008#32).len.toNat) ∧
      (∃ t, runEdges 4 ((idleState .little [0x80000008#32] []).under haltingEnv 4) = .next t ∧ t.responses = []) ∧
      rstEdge.rst = true ∧ rstEdge.dstWrites = [] :=
  ⟨by decide, haltingEnv_spares (by decide), ⟨_, rfl, rfl⟩, rfl, rfl⟩

/-- The prefixes 1, between the two writes of a pixel, and 2, which is `LEN / 2`: five and six edges of `CONV_SWAPPED 4`. -/
theorem witness_UnfinishedTargetIsPrefix_written :
    (decodeWord 0x80000004#32).len.toNat % 4 = 0 ∧ (∀ j, (readyEnv j).spares (decodeWord 0x80000004#32).len.toNat) ∧
      (next? (runEdges 5 ((idleState .little [0x80000004#32] []).under readyEnv 5))).map
          (fun t => (t.targetBytesWritten, t.responses)) = some (1, []) ∧
      (next? (runEdges 6 ((idleState .little [0x80000004#32] []).under readyEnv 6))).map
          (fun t => (t.targetBytesWritten, t.responses)) = some (2, []) :=
  ⟨by decide, readyEnv_spares _, by decide, by decide⟩

/-- R107: with the first byte of pixel 1 written, 3 bytes are. -/
theorem test_target_bytes_written :
    halfWritten.targetBytesWritten = 3 ∧ (idleState .little [] []).targetBytesWritten = 0 ∧
      bytesAcknowledged (commandTrace .bigEndianSwapped .little srcBytes 1) = 2 := by decide

/-- An environment that answers, and one that never does. -/
theorem witness_CommandEndsIffAnswered :
    RegInv halfWritten ∧ halfWritten.phase ≠ .idle ∧ (∀ j, (haltingEnv j).spares halfWritten.len.toNat) ∧
      ∀ j, ((fun _ => stall : Nat → Edge) j).spares halfWritten.len.toNat :=
  ⟨halfWritten_RegInv, by decide, haltingEnv_spares (by decide),
    fun _ => ⟨rfl, fun c hc => absurd hc (by simp [stall, Edge.quiet]), fun c hc => absurd hc (by simp [stall, Edge.quiet])⟩⟩

/-- An environment that never supplies anything. -/
def Steady.never : Steady where
  rst := false
  cmdHold := true
  rspReady := false
  srcAnswers := false
  dstAnswers := false

/-- R118: a read that is never acknowledged; the block is where it was. -/
theorem test_unanswered_read :
    next? (step { runState .packedNative .little 1 .readRed [] with steady := Steady.never }) =
      some { runState .packedNative .little 1 .readRed [] with steady := Steady.never } := by decide

theorem witness_UnansweredBlockIsStuck :
    (runState .packedNative .little 1 .readRed []).script = [] ∧ Steady.never.rst = false ∧
      { runState .packedNative .little 1 .readRed [] with steady := Steady.never }.srcRequest ≠ none ∧
      { runState .packedNative .little 1 (.writeFirst 8 4 8) [] with steady := Steady.never }.dstRequest ≠ none ∧
      { respState 8 0 4 2 [] with steady := Steady.never }.phase = .resp ∧
      { idleState .little [4] [] with steady := Steady.never }.phase = .idle := by decide

theorem witness_ResponseWordLine :
    (respState 8 0 4 2 [rstEdge]).phase = .resp ∧ halfWritten.phase ≠ .resp ∧
      (respState 8 0 4 2 [stall]).rspValid = true ∧ hostMisuse (respState 8 0 4 2 [stall]) = none ∧
      (respState 8 0 4 2 [stall]).edge.rspReady = false ∧ (respState 8 0 4 2 []).rspValid = true ∧
      (respState 8 0 4 2 []).edge.rspReady = true := by decide

end Sys2Proof.Machine.Tests
end

/-!
PROOFS. The registers over one edge (10_state.md): which register an operation of the sequencer writes and how the agreement
of the registers survives it, the transitions of `PHASE`, and that the accept sees no leftover.
-/

namespace Sys2Proof.Machine

/-! ### The agreement of the registers under each operation

`RegInv` reads `PHASE`, `MODE`, `LEN`, `PIX`, `STATUS`, `OUT_LEN` and the stage only; an update of anything else carries every
field over as it is. -/

theorem RegInv.endEdge {s : State} (h : RegInv s) (e : Edge) : RegInv (endEdge e s) := { h with }

theorem RegInv.setDst {s : State} (h : RegInv s) (m : Memory) : RegInv (s.setDst m) := { h with }

/-- The registers agree after a reset edge, whatever they held before. -/
theorem regInv_resetEdge (s : State) : RegInv (resetEdge s) := by
  rw [resetEdge_eq]
  constructor <;> simp

/-- The registers agree after an accept, whatever they held before: it writes all of them (R72). -/
theorem regInv_accept (m : Mode) (len : Len) (s : State) : RegInv (accept m len s) := by
  cases hv : lengthValid len with
  | true =>
    have hlen : len.toNat % 4 = 0 := (lengthValid_iff len).1 hv
    rw [accept_of_valid m hv]
    constructor <;> simp [hlen, outLenOf_toNat]
  | false =>
    have hlen : len.toNat % 4 ≠ 0 := fun h => by simp [(lengthValid_iff len).2 h] at hv
    rw [accept_of_invalid m hv]
    constructor <;> simp [hlen]

/-- A command that is past the length check has a valid length (R95: an invalid one never reaches `RUN`). -/
theorem RegInv.len_valid_of_run {s : State} (h : RegInv s) (hp : s.phase = .run) : s.len.toNat % 4 = 0 := by
  by_contra hne
  obtain ⟨-, -, -, hrun⟩ := h.invalid_result hne
  exact hrun hp

/-- Inside a pixel step any transaction may be in flight, but a second write only in BigEndianSwappedMode. -/
theorem RegInv.setStage {s : State} (h : RegInv s) (hp : s.phase = .run) (hl : 4 * s.pix.toNat < s.len.toNat)
    (g : PixelStage) (hg : ∀ r g' b, g = .writeSecond r g' b → s.mode = .bigEndianSwapped) : RegInv (s.setStage g) :=
  { h with
    stage_in_run := fun _ => ⟨hp, hl⟩
    second_is_swapped := hg }

/-- `PIX + 1` does not wrap while a pixel of a valid length is left: `4 * PIX + 4 <= LEN < 2^31`. -/
theorem pix_succ_toNat {s : State} (hlen : s.len.toNat % 4 = 0) (hl : 4 * s.pix.toNat < s.len.toNat) :
    (s.pix + 1).toNat = s.pix.toNat + 1 := by
  have := s.len.isLt
  exact BitVec.toNat_add_of_lt (by simp; omega)

/-- The end of a pixel step: a valid length is a multiple of 4, so `4 * PIX < LEN` leaves room for the whole pixel. -/
theorem RegInv.nextPixel {s : State} (h : RegInv s) (hp : s.phase = .run) (hl : 4 * s.pix.toNat < s.len.toNat) :
    RegInv (nextPixel s) := by
  have hlen := h.len_valid_of_run hp
  have hpix : (Machine.nextPixel s).pix.toNat = s.pix.toNat + 1 := pix_succ_toNat hlen hl
  exact
    { valid_result := h.valid_result
      invalid_result := fun hne => absurd hlen hne
      pix_le := show 4 * (Machine.nextPixel s).pix.toNat ≤ s.len.toNat by omega
      resp_done := fun hr => absurd (hp.symm.trans hr) (by decide)
      stage_in_run := fun hg => absurd rfl hg
      second_is_swapped := fun _ _ _ hg => by cases hg }

/-- The finish: every pixel is converted and no transaction is in flight (R76). -/
theorem RegInv.finish {s : State} (h : RegInv s) (hp : s.phase = .run) (hl : 4 * s.pix.toNat = s.len.toNat) :
    RegInv (s.setPhase .resp) :=
  { h with
    invalid_result := fun hne => absurd (h.len_valid_of_run hp) hne
    resp_done := fun _ _ => hl
    stage_in_run := fun hg => by
      obtain ⟨-, hlt⟩ := h.stage_in_run hg
      omega }

/-- The respond: the registers stay as they are, and no transaction is in flight in `RESP` (R77). -/
theorem RegInv.respond {s : State} (h : RegInv s) (hp : s.phase = .resp) (r : RspWord) :
    RegInv ((s.pushResponse r).setPhase .idle) :=
  { h with
    invalid_result := fun hne => by
      obtain ⟨hstatus, hout, hpix, -⟩ := h.invalid_result hne
      exact ⟨hstatus, hout, hpix, by simp⟩
    resp_done := fun hr => by cases hr
    stage_in_run := fun hg => by
      obtain ⟨hrun, -⟩ := h.stage_in_run hg
      exact absurd (hp.symm.trans hrun) (by decide) }

/-- Every step of a command keeps the agreement. In `RUN` the command must have the mode that stands in `MODE`: the second
write is the swapped command's. -/
theorem ExecCase.regInv {i : Instr} {s t : State} (hc : ExecCase i s t) (h : RegInv s)
    (hmode : s.phase = .run → i.mode = s.mode) : RegInv t := by
  cases hc with
  | accept => exact regInv_accept ..
  | waitRead => exact h
  | waitWrite => exact h
  | readRed hp hl => exact h.setStage hp hl _ (fun _ _ _ e => by cases e)
  | readGreen r hp hl => exact h.setStage hp hl _ (fun _ _ _ e => by cases e)
  | readBlue r g hp hl => exact h.setStage hp hl _ (fun _ _ _ e => by cases e)
  | nativeWrite r g b _ hp hl => exact (h.setDst _).nextPixel hp hl
  | swappedFirst r g b hm hp hl => exact (h.setDst (applyLanes ..)).setStage hp hl _ (fun _ _ _ _ => (hmode hp).symm.trans hm)
  | swappedSecond r g b _ hp hl => exact (h.setDst _).nextPixel hp hl
  | finish hp hl => exact h.finish hp hl
  | respond hp => exact h.respond hp _
  | waitRespond => exact h

/-- The command that is due outside `IDLE` has the mode that stands in `MODE` (R13). -/
theorem due_mode {s : State} {i : Instr} (hd : s.due = some i) (hp : s.phase ≠ .idle) : i.mode = s.mode := by
  rw [due_inProgress hp, Option.some.injEq] at hd
  rw [← hd, mode_ofModeLen]

/-- Settles O36: the registers agree after every edge, by cases on what the edge does. -/
theorem stepKeepsRegInv : Obligations.StepKeepsRegInv := by
  intro s t h hs
  obtain ⟨-, ⟨-, rfl⟩ | ⟨-, -, rfl⟩ | ⟨-, i, u, hd, hu, rfl⟩⟩ := step_next hs
  · exact (regInv_resetEdge s).endEdge _
  · exact h.endEdge _
  · have hmode : s.phase = .run → i.mode = s.mode := fun hp => due_mode hd (by simp [hp])
    exact ((exec_next hu).regInv h hmode).endEdge _

/-! ### The transitions of `PHASE` -/

@[simp] theorem endEdge_phase (e : Edge) (s : State) : (endEdge e s).phase = s.phase := rfl

@[simp] theorem endEdge_len (e : Edge) (s : State) : (endEdge e s).len = s.len := rfl

@[simp] theorem accept_len (m : Mode) (len : Len) (s : State) : (accept m len s).len = len := by
  cases hv : lengthValid len
  · rw [accept_of_invalid m hv]
  · rw [accept_of_valid m hv]

/-- The accept goes to `RUN` with a valid length, to `RESP` with an invalid one (R72, R95). -/
theorem accept_phase (m : Mode) (len : Len) (s : State) :
    (accept m len s).phase = if len.toNat % 4 = 0 then .run else .resp := by
  simp only [← lengthValid_iff]
  cases hv : lengthValid len
  · rw [accept_of_invalid m hv]; rfl
  · rw [accept_of_valid m hv]; rfl

/-- The transitions of `PHASE` a command's own step can take, with their guards (R12). -/
theorem ExecCase.phase_change {i : Instr} {s t : State} (hc : ExecCase i s t) (hne : t.phase ≠ s.phase) :
    (s.phase = .idle ∧ t.phase = .run ∧ t.len.toNat % 4 = 0) ∨
      (s.phase = .idle ∧ t.phase = .resp ∧ t.len.toNat % 4 ≠ 0) ∨
      (s.phase = .run ∧ t.phase = .resp ∧ 4 * s.pix.toNat = s.len.toNat) ∨
      (s.phase = .resp ∧ t.phase = .idle ∧ s.edge.rspReady = true) := by
  cases hc with
  | accept hp =>
    by_cases hlen : i.len.toNat % 4 = 0
    · exact .inl ⟨hp, by simp [accept_phase, hlen], by simpa using hlen⟩
    · exact .inr (.inl ⟨hp, by simp [accept_phase, hlen], by simpa using hlen⟩)
  | finish hp hl => exact .inr (.inr (.inl ⟨hp, rfl, hl⟩))
  | respond hp hr => exact .inr (.inr (.inr ⟨hp, rfl, hr⟩))
  | _ => exact absurd rfl hne

/-- In `IDLE` a command is due only when the host offers it (R53). -/
theorem cmdValid_of_due {s : State} {i : Instr} (hp : s.phase = .idle) (hd : s.due = some i) : s.cmdValid = true := by
  by_contra hv
  simp [State.due, hp, hv] at hd

/-- Settles O34: a reset edge goes to `IDLE`, a waiting edge keeps `PHASE`, a command's step takes one of its own transitions. -/
theorem phaseTransitions : Obligations.PhaseTransitions := by
  intro s t hs hne
  obtain ⟨-, ⟨hr, rfl⟩ | ⟨-, -, rfl⟩ | ⟨hr, i, u, hd, hu, rfl⟩⟩ := step_next hs
  · exact .inl ⟨hr, rfl⟩
  · exact absurd rfl hne
  · simp only [endEdge_phase, endEdge_len] at hne ⊢
    refine .inr ⟨hr, ?_⟩
    obtain ⟨hp, hrest⟩ | ⟨hp, hrest⟩ | hfinish | hrespond := (exec_next hu).phase_change hne
    · exact .inl ⟨hp, cmdValid_of_due hp hd, hrest⟩
    · exact .inr (.inl ⟨hp, cmdValid_of_due hp hd, hrest⟩)
    · exact .inr (.inr (.inl hfinish))
    · exact .inr (.inr (.inr hrespond))

/-! ### What an earlier command left -/

/-- In `IDLE` both commands accept, at once (R72). -/
theorem exec_of_idle (i : Instr) {s : State} (hp : s.phase = .idle) : exec i s = .next (accept i.mode i.len s) := by
  cases i <;> simp [exec, execConvNative, execConvSwapped, commandStep, hp, Instr.mode, Instr.len]

/-- The accept overwrites every register, so it sees none of their values. -/
theorem accept_withLeftovers (m' : Mode) (len : Len) (s : State) (m : Mode) (n : Len) (p : PixIndex) (c : StatusCode)
    (o : OutLen) (g : PixelStage) : accept m' len (s.withLeftovers m n p c o g) = accept m' len s := by
  cases hv : lengthValid len
  · rw [accept_of_invalid m' hv, accept_of_invalid m' hv]; rfl
  · rw [accept_of_valid m' hv, accept_of_valid m' hv]; rfl

/-- Settles O42: from `IDLE` both states take the accept, which overwrites what differs. -/
theorem noCarryOverBetweenCommands : Obligations.NoCarryOverBetweenCommands := by
  intro i s m n p c o g hp
  have hp' : (s.withLeftovers m n p c o g).phase = .idle := hp
  rw [exec_of_idle i hp', exec_of_idle i hp, accept_withLeftovers]

/-! ### The lines outside `RUN` and `RESP` -/

theorem srcReq_of_not_run {s : State} (hp : s.phase ≠ .run) : s.srcReq = false := by
  simp [State.srcReq, State.srcRequest, hp]

theorem dstReq_of_not_run {s : State} (hp : s.phase ≠ .run) : s.dstReq = false := by
  simp [State.dstReq, State.dstRequest, hp]

theorem rspValid_of_not_resp {s : State} (hp : s.phase ≠ .resp) : s.rspValid = false := by
  simp [State.rspValid, hp]

theorem cmdReady_of_idle {s : State} (hp : s.phase = .idle) (hr : s.edge.rst = false) : s.cmdReady = true := by
  simp [State.cmdReady, hp, hr]

/-- Settles O16: the register values are those `State.reset` lists, and the lines follow from `PHASE` = `IDLE`. -/
theorem resetValues : Obligations.ResetValues := by
  have hp : State.reset.phase = .idle := rfl
  exact ⟨hp, rfl, rfl, rfl, rfl, rfl, rfl, cmdReady_of_idle hp rfl, rspValid_of_not_resp (by simp [hp]),
    srcReq_of_not_run (by simp [hp]), dstReq_of_not_run (by simp [hp])⟩

end Sys2Proof.Machine

/-!
PROOFS. The buffers and the two memory ports (20_memory.md): what the write primitives and the lanes of a target write
store, which requests are made and how long they are held, what one edge does to `SRC` and `DST`, and the transactions of a
whole command.
-/

namespace Sys2Proof.Machine

/-! ### The write primitives (R29) -/

theorem extractLsb'_low_byte (v : Value16) : v.extractLsb' 0 8 = v.setWidth 8 :=
  (BitVec.setWidth_eq_extractLsb' (by decide)).symm

theorem extractLsb'_high_byte (v : Value16) : v.extractLsb' 8 8 = (v >>> 8).setWidth 8 :=
  BitVec.setWidth_ushiftRight_eq_extractLsb.symm

/-- A 2-byte write stores the two bytes the serializer gives, in its order. -/
theorem memWriteUnit_eq_serialize (o : ByteOrder) (m : Memory) (a : DstAddr) (v : Value16) :
    memWriteUnit o m a v =
      Memory.write (Memory.write m a.toNat (serialize v o).1) (a.toNat + 1) (serialize v o).2 := by
  cases o <;> rfl

/-- Every byte after a 2-byte write. -/
theorem read_memWriteUnit (o : ByteOrder) (m : Memory) (a : DstAddr) (v : Value16) (x : Nat) :
    Memory.read (memWriteUnit o m a v) x =
      if a.toNat + 1 = x then (serialize v o).2 else if a.toNat = x then (serialize v o).1 else Memory.read m x := by
  rw [memWriteUnit_eq_serialize, Memory.read_write, Memory.read_write]

/-- Settles O11: every byte after a write is known by its offset, and the serializer's bytes are the halves of the value. -/
theorem writePrimitives : Obligations.WritePrimitives := by
  intro m a v b
  refine ⟨?_, ?_, ?_, ?_, fun o x hlow hhigh => ?_, Memory.read_write_same _ _ _,
    fun x hx => Memory.read_write_other _ _ (Ne.symm hx)⟩
  · simp [read_memWriteUnit, serialize, extractLsb'_low_byte]
  · simp [read_memWriteUnit, serialize, extractLsb'_high_byte]
  · simp [read_memWriteUnit, serialize, extractLsb'_high_byte]
  · simp [read_memWriteUnit, serialize, extractLsb'_low_byte]
  · rw [read_memWriteUnit, if_neg (Ne.symm hhigh), if_neg (Ne.symm hlow)]

/-! ### The shapes of a target write (R42) -/

theorem targetOffset_succ_toNat (pix : PixIndex) : (targetOffset pix + 1).toNat = 2 * pix.toNat + 1 := by
  have := pix.isLt
  rw [BitVec.toNat_add_of_lt] <;> simp [targetOffset_toNat]
  omega

/-- Settles O12: addresses, enables and disabled lanes stand in the three definitions; the lane laws give what is stored. -/
theorem targetWriteShapes : Obligations.TargetWriteShapes := by
  intro o pix r g b m
  have haddr := targetOffset_toNat pix
  refine ⟨haddr, rfl, ?_, haddr, rfl, high_lane _ _, applyLanes_low _ _ _ _, haddr, rfl, low_lane _ _, ?_⟩
  · rw [memWriteUnit_eq_serialize]
    exact applyLanes_both _ _ _ _
  · rw [memWriteByte, targetOffset_succ_toNat, ← haddr]
    exact applyLanes_high _ _ _ _

/-! ### The requests on the two ports (R36, R41, R42) -/

/-- A source request is one of the three reads of a pixel that is left. -/
theorem srcRequest_some {s : State} {a : SrcAddr} (h : s.srcRequest = some a) :
    s.phase = .run ∧ 4 * s.pix.toNat < s.len.toNat ∧
      ((s.stage = .readRed ∧ a = sourceOffset s.pix 0) ∨
        (∃ r, s.stage = .readGreen r ∧ a = sourceOffset s.pix 1) ∨
        ∃ r g, s.stage = .readBlue r g ∧ a = sourceOffset s.pix 2) := by
  unfold State.srcRequest at h
  split at h
  · next hrun =>
    obtain ⟨hp, hl⟩ := hrun
    refine ⟨hp, (pixelLeft_iff s).1 hl, ?_⟩
    split at h <;> simp_all
  · cases h

/-- A target request is one of the three writes of R42, for a pixel that is left. -/
theorem dstRequest_some {s : State} {w : DstWrite} (h : s.dstRequest = some w) :
    s.phase = .run ∧ 4 * s.pix.toNat < s.len.toNat ∧
      ∃ r g b, (s.stage = .writeFirst r g b ∧ s.mode = .packedNative ∧ w = nativeWrite s.nativeByteOrder s.pix r g b) ∨
        (s.stage = .writeFirst r g b ∧ s.mode = .bigEndianSwapped ∧ w = swappedFirstWrite s.pix r g b) ∨
        (s.stage = .writeSecond r g b ∧ s.mode = .bigEndianSwapped ∧ w = swappedSecondWrite s.pix r g b) := by
  unfold State.dstRequest at h
  split at h
  · next hrun =>
    obtain ⟨hp, hl⟩ := hrun
    refine ⟨hp, (pixelLeft_iff s).1 hl, ?_⟩
    split at h <;> simp_all
  · cases h


/-- Never one on both ports: a pixel step reads before it writes (R36). -/
theorem dstRequest_none_of_srcRequest {s : State} {a : SrcAddr} (h : s.srcRequest = some a) : s.dstRequest = none := by
  by_contra hne
  obtain ⟨w, hw⟩ := Option.ne_none_iff_exists'.1 hne
  obtain ⟨-, -, hread⟩ := srcRequest_some h
  obtain ⟨-, -, r, g, b, hwrite⟩ := dstRequest_some hw
  obtain ⟨hg, -⟩ | ⟨r', hg, -⟩ | ⟨r', g', hg, -⟩ := hread <;> simp [hg] at hwrite

theorem srcRequest_of_not_run {s : State} (hp : s.phase ≠ .run) : s.srcRequest = none := by
  simp [State.srcRequest, hp]

theorem dstRequest_of_not_run {s : State} (hp : s.phase ≠ .run) : s.dstRequest = none := by
  simp [State.dstRequest, hp]

/-- The offset a read asks for is one of the first three bytes of the pixel in work. -/
theorem srcRequest_toNat {s : State} {a : SrcAddr} (h : s.srcRequest = some a) :
    ∃ k, k < 3 ∧ a.toNat = 4 * s.pix.toNat + k := by
  obtain ⟨-, -, ⟨-, rfl⟩ | ⟨r, -, rfl⟩ | ⟨r, g, -, rfl⟩⟩ := srcRequest_some h
  · exact ⟨0, by decide, sourceOffset_toNat _ (by decide)⟩
  · exact ⟨1, by decide, sourceOffset_toNat _ (by decide)⟩
  · exact ⟨2, by decide, sourceOffset_toNat _ (by decide)⟩

/-- A write is made at `2 * PIX` and enables a lane. -/
theorem dstRequest_addr_be {s : State} {w : DstWrite} (h : s.dstRequest = some w) :
    w.addr.toNat = 2 * s.pix.toNat ∧ w.be ≠ 0 := by
  have haddr := targetOffset_toNat s.pix
  obtain ⟨-, -, r, g, b, ⟨-, -, rfl⟩ | ⟨-, -, rfl⟩ | ⟨-, -, rfl⟩⟩ := dstRequest_some h
  · exact ⟨haddr, by simp [nativeWrite]⟩
  · exact ⟨haddr, by simp [swappedFirstWrite]⟩
  · exact ⟨haddr, by simp [swappedSecondWrite]⟩

/-- Settles O13: a pixel that is left is left whole, since a length in `RUN` is a multiple of 4, so the offsets of its
requests stay below `LEN` and `LEN / 2`. -/
theorem requestsInBounds : Obligations.RequestsInBounds := by
  intro s hreg
  refine ⟨fun hp => ⟨srcRequest_of_not_run hp, dstRequest_of_not_run hp⟩, ?_, fun a ha => ?_, fun w hw => ?_⟩
  · cases hs : s.srcRequest with
    | none => exact .inl rfl
    | some a => exact .inr (dstRequest_none_of_srcRequest hs)
  · obtain ⟨hp, hl, -⟩ := srcRequest_some ha
    obtain ⟨k, hk, hak⟩ := srcRequest_toNat ha
    have := hreg.len_valid_of_run hp
    exact ⟨⟨k, hk, hak⟩, by omega⟩
  · obtain ⟨hp, hl, -⟩ := dstRequest_some hw
    obtain ⟨haddr, hbe⟩ := dstRequest_addr_be hw
    have := hreg.len_valid_of_run hp
    exact ⟨haddr, by omega, hbe⟩

/-! ### The transactions of a pixel step

One equation of `exec` for each stage of the pixel step: the transaction it tries (R75). -/

section Stages

variable {s : State} (hp : s.phase = .run) (hl : 4 * s.pix.toNat < s.len.toNat)
include hp hl

theorem exec_convNative_pixel (len : Len) : exec (.convNative len) s = nativePixel s := by
  simp [exec, execConvNative, commandStep, hp, (pixelLeft_iff s).2 hl]

theorem exec_convSwapped_pixel (len : Len) : exec (.convSwapped len) s = swappedPixel s := by
  simp [exec, execConvSwapped, commandStep, hp, (pixelLeft_iff s).2 hl]

theorem exec_readRed (i : Instr) (hg : s.stage = .readRed) : exec i s = readSource 0 (fun r => .readGreen r) s := by
  cases i with
  | convNative len => rw [exec_convNative_pixel hp hl, nativePixel, hg]
  | convSwapped len => rw [exec_convSwapped_pixel hp hl, swappedPixel, hg]

theorem exec_readGreen (i : Instr) {r : Byte} (hg : s.stage = .readGreen r) :
    exec i s = readSource 1 (fun g => .readBlue r g) s := by
  cases i with
  | convNative len => rw [exec_convNative_pixel hp hl, nativePixel, hg]
  | convSwapped len => rw [exec_convSwapped_pixel hp hl, swappedPixel, hg]

theorem exec_readBlue (i : Instr) {r g : Byte} (hg : s.stage = .readBlue r g) :
    exec i s = readSource 2 (fun b => .writeFirst r g b) s := by
  cases i with
  | convNative len => rw [exec_convNative_pixel hp hl, nativePixel, hg]
  | convSwapped len => rw [exec_convSwapped_pixel hp hl, swappedPixel, hg]

theorem exec_nativeWrite {i : Instr} (hm : i.mode = .packedNative) {r g b : Byte} (hg : s.stage = .writeFirst r g b) :
    exec i s = writeTarget (nativeWrite s.nativeByteOrder s.pix r g b) nextPixel s := by
  cases i with
  | convNative len => rw [exec_convNative_pixel hp hl, nativePixel, hg]
  | convSwapped len => cases hm

theorem exec_swappedFirst {i : Instr} (hm : i.mode = .bigEndianSwapped) {r g b : Byte}
    (hg : s.stage = .writeFirst r g b) :
    exec i s = writeTarget (swappedFirstWrite s.pix r g b) (fun t => t.setStage (.writeSecond r g b)) s := by
  cases i with
  | convNative len => cases hm
  | convSwapped len => rw [exec_convSwapped_pixel hp hl, swappedPixel, hg]

theorem exec_swappedSecond {i : Instr} (hm : i.mode = .bigEndianSwapped) {r g b : Byte}
    (hg : s.stage = .writeSecond r g b) :
    exec i s = writeTarget (swappedSecondWrite s.pix r g b) nextPixel s := by
  cases i with
  | convNative len => cases hm
  | convSwapped len => rw [exec_convSwapped_pixel hp hl, swappedPixel, hg]

end Stages

theorem readSource_of_ack {k : Nat} {f : Byte → PixelStage} {s : State} (ha : s.edge.srcAck = true) :
    readSource k f s = .next (s.setStage (f (memRead s.src (sourceOffset s.pix k)))) := by
  simp [readSource, ha]

theorem readSource_of_no_ack {k : Nat} {f : Byte → PixelStage} {s : State} (ha : s.edge.srcAck = false) :
    readSource k f s = .next s := by
  simp [readSource, ha]

theorem writeTarget_of_ack {w : DstWrite} {f : State → State} {s : State} (ha : s.edge.dstAck = true) :
    writeTarget w f s = .next (f (s.setDst (applyLanes s.dst w))) := by
  simp [writeTarget, ha]

theorem writeTarget_of_no_ack {w : DstWrite} {f : State → State} {s : State} (ha : s.edge.dstAck = false) :
    writeTarget w f s = .next s := by
  simp [writeTarget, ha]

/-- The byte at `SRC[4 * PIX + k]` (R28, R84). -/
theorem memRead_sourceOffset (m : Memory) (pix : PixIndex) {k : Nat} (hk : k < 4) :
    memRead m (sourceOffset pix k) = Memory.read m (4 * pix.toNat + k) := by
  rw [memRead, sourceOffset_toNat pix hk]

/-- Settles O20: each read stage tries its read, and an acknowledged read moves on with the byte at its offset. -/
theorem acknowledgedReads : Obligations.AcknowledgedReads := by
  intro i s hp hl ha
  refine ⟨fun hg => ?_, fun r hg => ?_, fun r g hg => ?_⟩
  · rw [exec_readRed hp hl i hg, readSource_of_ack ha, memRead_sourceOffset _ _ (by decide)]; rfl
  · rw [exec_readGreen hp hl i hg, readSource_of_ack ha, memRead_sourceOffset _ _ (by decide)]; rfl
  · rw [exec_readBlue hp hl i hg, readSource_of_ack ha, memRead_sourceOffset _ _ (by decide)]; rfl

/-- The transaction that is due in a pixel step, as the port sees it, and the state after it is performed. -/
inductive Transaction (s : State) : PortEvent → State → Prop where
  | readRed (hg : s.stage = .readRed) :
      Transaction s (.read (sourceOffset s.pix 0) (memRead s.src (sourceOffset s.pix 0)))
        (s.setStage (.readGreen (memRead s.src (sourceOffset s.pix 0))))
  | readGreen (r : Byte) (hg : s.stage = .readGreen r) :
      Transaction s (.read (sourceOffset s.pix 1) (memRead s.src (sourceOffset s.pix 1)))
        (s.setStage (.readBlue r (memRead s.src (sourceOffset s.pix 1))))
  | readBlue (r g : Byte) (hg : s.stage = .readBlue r g) :
      Transaction s (.read (sourceOffset s.pix 2) (memRead s.src (sourceOffset s.pix 2)))
        (s.setStage (.writeFirst r g (memRead s.src (sourceOffset s.pix 2))))
  | nativeWrite (r g b : Byte) (hm : s.mode = .packedNative) (hg : s.stage = .writeFirst r g b) :
      Transaction s (.write (nativeWrite s.nativeByteOrder s.pix r g b))
        (nextPixel (s.setDst (applyLanes s.dst (nativeWrite s.nativeByteOrder s.pix r g b))))
  | swappedFirst (r g b : Byte) (hm : s.mode = .bigEndianSwapped) (hg : s.stage = .writeFirst r g b) :
      Transaction s (.write (swappedFirstWrite s.pix r g b))
        ((s.setDst (applyLanes s.dst (swappedFirstWrite s.pix r g b))).setStage (.writeSecond r g b))
  | swappedSecond (r g b : Byte) (hm : s.mode = .bigEndianSwapped) (hg : s.stage = .writeSecond r g b) :
      Transaction s (.write (swappedSecondWrite s.pix r g b))
        (nextPixel (s.setDst (applyLanes s.dst (swappedSecondWrite s.pix r g b))))

theorem portEvent_of_srcRequest {s : State} {a : SrcAddr} (hr : s.edge.rst = false) (h : s.srcRequest = some a) :
    s.portEvent = if s.edge.srcAck then some (.read a (memRead s.src a)) else none := by
  simp [State.portEvent, hr, h]

theorem portEvent_of_dstRequest {s : State} {w : DstWrite} (hr : s.edge.rst = false) (h : s.dstRequest = some w) :
    s.portEvent = if s.edge.dstAck then some (.write w) else none := by
  have hsrc : s.srcRequest = none := by
    by_contra hne
    obtain ⟨a, ha⟩ := Option.ne_none_iff_exists'.1 hne
    simp [dstRequest_none_of_srcRequest ha] at h
  simp [State.portEvent, hr, hsrc, h]

/-- While a read is asked for, the step waits for `src_ack` and then performs it. -/
theorem exec_of_srcRequest {s : State} {a : SrcAddr} (i : Instr) (h : s.srcRequest = some a) :
    (s.edge.srcAck = false → exec i s = .next s) ∧
      (s.edge.srcAck = true → ∃ u, exec i s = .next u ∧ Transaction s (.read a (memRead s.src a)) u) := by
  obtain ⟨hp, hl, ⟨hg, rfl⟩ | ⟨r, hg, rfl⟩ | ⟨r, g, hg, rfl⟩⟩ := srcRequest_some h
  · rw [exec_readRed hp hl i hg]
    exact ⟨readSource_of_no_ack, fun ha => ⟨_, readSource_of_ack ha, .readRed hg⟩⟩
  · rw [exec_readGreen hp hl i hg]
    exact ⟨readSource_of_no_ack, fun ha => ⟨_, readSource_of_ack ha, .readGreen r hg⟩⟩
  · rw [exec_readBlue hp hl i hg]
    exact ⟨readSource_of_no_ack, fun ha => ⟨_, readSource_of_ack ha, .readBlue r g hg⟩⟩

/-- While a write is asked for, the step of the command in progress waits for `dst_ack` and then performs it. -/
theorem exec_of_dstRequest {s : State} {w : DstWrite} {i : Instr} (hi : i.mode = s.mode) (h : s.dstRequest = some w) :
    (s.edge.dstAck = false → exec i s = .next s) ∧
      (s.edge.dstAck = true → ∃ u, exec i s = .next u ∧ Transaction s (.write w) u) := by
  obtain ⟨hp, hl, r, g, b, ⟨hg, hm, rfl⟩ | ⟨hg, hm, rfl⟩ | ⟨hg, hm, rfl⟩⟩ := dstRequest_some h
  · rw [exec_nativeWrite hp hl (hi.trans hm) hg]
    exact ⟨writeTarget_of_no_ack, fun ha => ⟨_, writeTarget_of_ack ha, .nativeWrite r g b hm hg⟩⟩
  · rw [exec_swappedFirst hp hl (hi.trans hm) hg]
    exact ⟨writeTarget_of_no_ack, fun ha => ⟨_, writeTarget_of_ack ha, .swappedFirst r g b hm hg⟩⟩
  · rw [exec_swappedSecond hp hl (hi.trans hm) hg]
    exact ⟨writeTarget_of_no_ack, fun ha => ⟨_, writeTarget_of_ack ha, .swappedSecond r g b hm hg⟩⟩

/-- A step of a block in `RUN` that performs nothing for the command in progress only ends the edge. -/
theorem step_of_waiting {s t : State} (hp : s.phase ≠ .idle) (hr : s.edge.rst = false)
    (hw : exec (.ofModeLen s.mode s.len) s = .next s) (hs : step s = .next t) : t = endEdge s.edge s := by
  obtain ⟨-, ⟨hrst, -⟩ | ⟨-, hd, -⟩ | ⟨-, i, u, hd, hu, rfl⟩⟩ := step_next hs
  · simp [hr] at hrst
  · exact absurd (due_none_idle hd) hp
  · obtain rfl : Instr.ofModeLen s.mode s.len = i := by simpa [due_inProgress hp] using hd
    obtain rfl : s = u := by simpa [hw] using hu
    rfl

/-- Settles O14: an edge that does not acknowledge the request leaves the registers it is made of alone. -/
theorem requestHeldUntilAcknowledged : Obligations.RequestHeldUntilAcknowledged := by
  intro s t hr hs
  refine ⟨fun a h ha => ?_, fun w h ha => ?_⟩
  · obtain ⟨hp, -⟩ := srcRequest_some h
    obtain ⟨hwait, -⟩ := exec_of_srcRequest (.ofModeLen s.mode s.len) h
    rw [step_of_waiting (by simp [hp]) hr (hwait ha) hs]
    exact h
  · obtain ⟨hp, -⟩ := dstRequest_some h
    obtain ⟨hwait, -⟩ := exec_of_dstRequest (mode_ofModeLen s.mode s.len) h
    rw [step_of_waiting (by simp [hp]) hr (hwait ha) hs]
    exact h

/-! ### The buffers over one edge (R25, R30, R34, R38) -/

/-- What a command's step does to `DST`: nothing, or one target write of a pixel that is left (R42). -/
theorem exec_dst {i : Instr} {s t : State} (h : exec i s = .next t) :
    t.dst = s.dst ∨ (s.phase = .run ∧ 4 * s.pix.toNat < s.len.toNat ∧
      ∃ w : DstWrite, w.addr.toNat = 2 * s.pix.toNat ∧ t.dst = applyLanes s.dst w) := by
  have haddr := targetOffset_toNat s.pix
  cases exec_next h with
  | accept => exact .inl (accept_frame ..).2.1
  | nativeWrite r g b _ hp hl => exact .inr ⟨hp, hl, _, haddr, rfl⟩
  | swappedFirst r g b _ hp hl => exact .inr ⟨hp, hl, _, haddr, rfl⟩
  | swappedSecond r g b _ hp hl => exact .inr ⟨hp, hl, _, haddr, rfl⟩
  | _ => exact .inl rfl

theorem applyLanes_within {m : Memory} {size : Nat} (hm : Memory.within size m = true) {w : DstWrite}
    (hw : w.addr.toNat + 1 < size) : Memory.within size (applyLanes m w) = true := by
  have hlow : w.addr.toNat < size := by omega
  unfold applyLanes
  split <;> split <;> simp only [Memory.within_write, hm, hlow, hw]

theorem read_applyLanes_other {m : Memory} {w : DstWrite} {a : Nat} (h0 : w.addr.toNat ≠ a)
    (h1 : w.addr.toNat + 1 ≠ a) : Memory.read (applyLanes m w) a = Memory.read m a := by
  unfold applyLanes
  split <;> split <;> simp only [Memory.read_write_other _ _ h0, Memory.read_write_other _ _ h1]

/-- The host's writes keep both buffers canonical and inside their spaces. -/
theorem MemInv.endEdge {s : State} (h : MemInv s) (e : Edge) : MemInv (endEdge e s) where
  src_wf := hostWriteSrc_wf h.src_wf _
  src_within := hostWriteSrc_within h.src_within _
  dst_wf := hostWriteDst_wf h.dst_wf _
  dst_within := hostWriteDst_within h.dst_within _

theorem MemInv.resetEdge {s : State} (h : MemInv s) : MemInv (resetEdge s) := { h with }

/-- A command's step keeps both buffers canonical and inside their spaces: the odd byte of the last pixel is below 2^30. -/
theorem MemInv.exec {i : Instr} {s t : State} (h : MemInv s) (he : exec i s = .next t) : MemInv t := by
  obtain ⟨hsrc, -⟩ := exec_frame he
  obtain ⟨hwf, hwithin⟩ : Memory.wf t.dst = true ∧ Memory.within (2 ^ 30) t.dst = true := by
    obtain hd | ⟨-, -, w, hw, hd⟩ := exec_dst he <;> rw [hd]
    · exact ⟨h.dst_wf, h.dst_within⟩
    · have := s.pix.isLt
      exact ⟨applyLanes_wf h.dst_wf w, applyLanes_within h.dst_within (by omega)⟩
  exact ⟨hsrc ▸ h.src_wf, hsrc ▸ h.src_within, hwf, hwithin⟩

/-- Settles O37: a reset edge writes no buffer; the command's write and the host's stay inside the spaces. -/
theorem stepKeepsMemInv : Obligations.StepKeepsMemInv := by
  intro s t h hs
  obtain ⟨-, ⟨-, rfl⟩ | ⟨-, -, rfl⟩ | ⟨-, i, u, -, hu, rfl⟩⟩ := step_next hs
  · exact h.resetEdge.endEdge _
  · exact h.endEdge _
  · exact (h.exec hu).endEdge _

/-- Outside `RUN`, and at and above `LEN / 2`, a command's step leaves `DST` alone (R34, R38). -/
theorem exec_read_dst {i : Instr} {s t : State} (hreg : RegInv s) (h : exec i s = .next t) {a : Nat}
    (ha : s.len.toNat / 2 ≤ a ∨ s.phase ≠ .run) : Memory.read t.dst a = Memory.read s.dst a := by
  obtain hd | ⟨hp, hl, w, hw, hd⟩ := exec_dst h <;> rw [hd]
  have hlen := hreg.len_valid_of_run hp
  have habove : s.len.toNat / 2 ≤ a := ha.resolve_right (fun hne => hne hp)
  exact read_applyLanes_other (by omega) (by omega)

/-- Settles O41: only the host writes `SRC`; the sequencer's write of a whole pixel ends below `LEN / 2`. -/
theorem stepFrame : Obligations.StepFrame := by
  intro s t hreg hs
  obtain ⟨-, ⟨-, rfl⟩ | ⟨-, -, rfl⟩ | ⟨-, i, u, -, hu, rfl⟩⟩ := step_next hs
  · exact ⟨rfl, fun a ha => hostWriteSrc_read _ _ a ha, fun a ha _ => hostWriteDst_read _ _ a ha⟩
  · exact ⟨rfl, fun a ha => hostWriteSrc_read _ _ a ha, fun a ha _ => hostWriteDst_read _ _ a ha⟩
  · obtain ⟨hsrc, horder, -⟩ := exec_frame hu
    refine ⟨horder, fun a ha => ?_, fun a ha habove => ?_⟩
    · exact (hostWriteSrc_read u.src _ a ha).trans (by rw [hsrc])
    · exact (hostWriteDst_read u.dst _ a ha).trans (exec_read_dst hreg hu habove)

/-! ### One edge of a command (R71, R88)

A command is followed from the edge at which its word waits on the channel to the edge at which its response is taken. -/

/-- Whatever the block waits for in state `s` is given at an edge driven as `e` says (R118 (a) to (c), and the host's offer). -/
def State.suppliedBy (s : State) (e : Edge) : Prop :=
  (s.srcRequest ≠ none → e.srcAck = true) ∧ (s.dstRequest ≠ none → e.dstAck = true) ∧
    (s.phase = .resp → e.rspReady = true) ∧ (s.phase = .idle → e.cmdHold = false)

theorem suppliedBy_of_idle {s : State} {e : Edge} (hp : s.phase = .idle) (h : e.cmdHold = false) : s.suppliedBy e := by
  simp [State.suppliedBy, srcRequest_of_not_run, dstRequest_of_not_run, hp, h]

theorem suppliedBy_of_resp {s : State} {e : Edge} (hp : s.phase = .resp) (h : e.rspReady = true) : s.suppliedBy e := by
  simp [State.suppliedBy, srcRequest_of_not_run, dstRequest_of_not_run, hp, h]

theorem suppliedBy_endEdge (e e' : Edge) (s : State) : (endEdge e s).suppliedBy e' = s.suppliedBy e' := rfl

theorem suppliedBy_withScript (l : List Edge) (e : Edge) (s : State) :
    (s.withScript l).suppliedBy e = s.suppliedBy e := rfl

/-- An environment that answers in the end gives all the block waits for at one edge: it never waits for two things. -/
theorem State.answeredBy.supply {s t : State} {env : Nat → Edge} (ha : s.answeredBy env) {k : Nat}
    (hk : runEdges k (s.under env k) = .next t) (hr : t.responses = s.responses) :
    ∃ j, k ≤ j ∧ t.suppliedBy (env j) := by
  obtain ⟨hsrc, hdst, hrsp, hcmd⟩ := ha k t hk hr
  cases hp : t.phase with
  | idle =>
    obtain ⟨j, hj, h⟩ := hcmd hp
    exact ⟨j, hj, suppliedBy_of_idle hp h⟩
  | resp =>
    obtain ⟨j, hj, h⟩ := hrsp hp
    exact ⟨j, hj, suppliedBy_of_resp hp h⟩
  | run =>
    cases hs : t.srcRequest with
    | some a =>
      obtain ⟨j, hj, h⟩ := hsrc (by simp [hs])
      exact ⟨j, hj, by simp [State.suppliedBy, hp, h, dstRequest_none_of_srcRequest hs]⟩
    | none =>
      cases hd : t.dstRequest with
      | some w =>
        obtain ⟨j, hj, h⟩ := hdst (by simp [hd])
        exact ⟨j, hj, by simp [State.suppliedBy, hp, h, hs]⟩
      | none => exact ⟨k, le_rfl, by simp [State.suppliedBy, hp, hs, hd]⟩

/-- What an edge without reset does while command `i` is offered or in progress, with the transaction seen on the ports. -/
inductive CommandMove (i : Instr) (s : State) : Option PortEvent → State → Prop where
  | wait (h : ¬ s.suppliedBy s.edge) : CommandMove i s none s
  | accept (hp : s.phase = .idle) : CommandMove i s none (accept i.mode i.len s)
  | transaction (hp : s.phase = .run) (hl : 4 * s.pix.toNat < s.len.toNat) {ev : PortEvent} {u : State}
      (h : Transaction s ev u) : CommandMove i s (some ev) u
  | finish (hp : s.phase = .run) (hl : 4 * s.pix.toNat = s.len.toNat) : CommandMove i s none (s.setPhase .resp)
  | respond (hp : s.phase = .resp) (hr : s.edge.rspReady = true) :
      CommandMove i s none ((s.pushResponse s.rspWord).setPhase .idle)

/-- At an edge with `rsp_ready` the response is taken (R77). -/
theorem CommandMove.of_respond {i : Instr} {s u : State} {ev : Option PortEvent} (h : CommandMove i s ev u)
    (hp : s.phase = .resp) (hr : s.edge.rspReady = true) : u = (s.pushResponse s.rspWord).setPhase .idle := by
  cases h with
  | wait hno => exact absurd (suppliedBy_of_resp hp hr) hno
  | respond => rfl
  | _ hp' => simp [hp] at hp'

/-- The block is about to run command `i`, whose word is on the channel, or is running it. What earlier commands left in
the registers of an idle block is not asked for. -/
structure Serves (i : Instr) (s : State) : Prop where
  offered : s.phase = .idle → s.commands.head?.map decodeWord = some i
  reg : s.phase ≠ .idle → RegInv s
  mode : s.phase ≠ .idle → s.mode = i.mode
  len : s.phase ≠ .idle → s.len = i.len

theorem serves_withScript {i : Instr} {s : State} (h : Serves i s) (l : List Edge) : Serves i (s.withScript l) :=
  ⟨h.offered, fun hp => { h.reg hp with }, h.mode, h.len⟩

theorem serves_endEdge {i : Instr} {s : State} (h : Serves i s) (e : Edge) : Serves i (endEdge e s) :=
  ⟨h.offered, fun hp => (h.reg hp).endEdge e, h.mode, h.len⟩

theorem hostMisuse_none_of_spares {s : State} {n : Nat} (hlen : s.phase ≠ .idle → s.len.toNat = n)
    (he : s.edge.spares n) : hostMisuse s = none := by
  obtain ⟨-, hsrc, hdst⟩ := he
  by_cases hp : s.phase = .idle
  · simp [hostMisuse, hp]
  · have hs : ¬ ∃ c ∈ s.edge.srcWrites, c.1.toNat < s.len.toNat := by
      rintro ⟨c, hc, hlt⟩
      exact absurd (hsrc c hc) (by rw [hlen hp] at hlt; omega)
    have hd : ¬ ∃ c ∈ s.edge.dstWrites, c.1.toNat < s.len.toNat / 2 := by
      rintro ⟨c, hc, hlt⟩
      exact absurd (hdst c hc) (by rw [hlen hp] at hlt; omega)
    simp only [hostMisuse, List.any_eq_true, decide_eq_true_eq, hs, hd, if_false, ite_self]

theorem step_of_due {s : State} {i : Instr} (hm : hostMisuse s = none) (hr : s.edge.rst = false) (hd : s.due = some i) :
    step s = mapNext (endEdge s.edge) (exec i s) := by
  simp [step, hm, hr, hd]

theorem step_of_no_due {s : State} (hm : hostMisuse s = none) (hr : s.edge.rst = false) (hd : s.due = none) :
    step s = .next (endEdge s.edge s) := by
  simp [step, hm, hr, hd]

theorem portEvent_none_of_no_request {s : State} (hs : s.srcRequest = none) (hd : s.dstRequest = none) :
    s.portEvent = none := by
  simp [State.portEvent, hs, hd]

theorem portEvent_of_not_run {s : State} (hp : s.phase ≠ .run) : s.portEvent = none :=
  portEvent_none_of_no_request (srcRequest_of_not_run hp) (dstRequest_of_not_run hp)

/-- With no pixel left there is no transaction (R76). -/
theorem portEvent_of_passOver {s : State} (hl : 4 * s.pix.toNat = s.len.toNat) : s.portEvent = none := by
  have hleft : ¬ s.pixelLeft = true := fun h => by
    have := (pixelLeft_iff s).1 h
    omega
  exact portEvent_none_of_no_request (by simp [State.srcRequest, hleft]) (by simp [State.dstRequest, hleft])

/-- While a pixel is left, one port has a request. -/
theorem request_of_pixelLeft {s : State} (hreg : RegInv s) (hp : s.phase = .run) (hl : 4 * s.pix.toNat < s.len.toNat) :
    s.srcRequest ≠ none ∨ s.dstRequest ≠ none := by
  have hleft := (pixelLeft_iff s).2 hl
  cases hg : s.stage with
  | readRed => simp [State.srcRequest, hp, hleft, hg]
  | readGreen r => simp [State.srcRequest, hp, hleft, hg]
  | readBlue r g => simp [State.srcRequest, hp, hleft, hg]
  | writeFirst r g b => cases hm : s.mode <;> simp [State.dstRequest, hp, hleft, hg, hm]
  | writeSecond r g b => simp [State.dstRequest, hp, hleft, hg, hreg.second_is_swapped r g b hg]

/-- A pixel step waits for the acknowledge of its request or performs the transaction. -/
theorem exec_pixel_move {s : State} {i : Instr} (hreg : RegInv s) (hi : i.mode = s.mode) (hr : s.edge.rst = false)
    (hp : s.phase = .run) (hl : 4 * s.pix.toNat < s.len.toNat) :
    ∃ u, exec i s = .next u ∧ CommandMove i s s.portEvent u := by
  obtain hreq | hreq := request_of_pixelLeft hreg hp hl
  · obtain ⟨a, h⟩ := Option.ne_none_iff_exists'.1 hreq
    obtain ⟨hwait, hgo⟩ := exec_of_srcRequest i h
    rw [portEvent_of_srcRequest hr h]
    cases ha : s.edge.srcAck with
    | false => exact ⟨s, hwait ha, .wait fun ⟨hs, _⟩ => by simp [hs hreq] at ha⟩
    | true =>
      obtain ⟨u, hu, ht⟩ := hgo ha
      exact ⟨u, hu, .transaction hp hl ht⟩
  · obtain ⟨w, h⟩ := Option.ne_none_iff_exists'.1 hreq
    obtain ⟨hwait, hgo⟩ := exec_of_dstRequest hi h
    rw [portEvent_of_dstRequest hr h]
    cases ha : s.edge.dstAck with
    | false => exact ⟨s, hwait ha, .wait fun ⟨_, hd, _⟩ => by simp [hd hreq] at ha⟩
    | true =>
      obtain ⟨u, hu, ht⟩ := hgo ha
      exact ⟨u, hu, .transaction hp hl ht⟩

theorem exec_finish {s : State} (i : Instr) (hp : s.phase = .run) (hl : 4 * s.pix.toNat = s.len.toNat) :
    exec i s = .next (s.setPhase .resp) := by
  cases i <;> simp [exec, execConvNative, execConvSwapped, commandStep, State.pixelLeft, State.passOver, hp, hl]

theorem exec_respond {s : State} (i : Instr) (hp : s.phase = .resp) : exec i s = respond s := by
  cases i <;> simp [exec, execConvNative, execConvSwapped, commandStep, hp]

/-- A command in progress makes one of its moves. -/
theorem exec_move {s : State} {i : Instr} (hreg : RegInv s) (hi : i.mode = s.mode) (hr : s.edge.rst = false)
    (hp : s.phase ≠ .idle) : ∃ u, exec i s = .next u ∧ CommandMove i s s.portEvent u := by
  cases hphase : s.phase with
  | idle => exact absurd hphase hp
  | run =>
    obtain hl | hl := Nat.lt_or_eq_of_le hreg.pix_le
    · exact exec_pixel_move hreg hi hr hphase hl
    · rw [portEvent_of_passOver hl]
      exact ⟨_, exec_finish i hphase hl, .finish hphase hl⟩
  | resp =>
    rw [portEvent_of_not_run (by simp [hphase]), exec_respond i hphase, respond]
    cases hrdy : s.edge.rspReady with
    | false => exact ⟨s, rfl, .wait fun ⟨_, _, h, _⟩ => by simp [h hphase] at hrdy⟩
    | true => exact ⟨_, rfl, .respond hphase hrdy⟩

/-- What is due in `IDLE` is the offered word, if the host does not hold it back (R53). -/
theorem Serves.due_of_idle {i : Instr} {s : State} (h : Serves i s) (hp : s.phase = .idle) :
    s.due = if s.edge.cmdHold then none else some i := by
  have hoff := h.offered hp
  cases hc : s.commands with
  | nil => simp [hc] at hoff
  | cons w rest =>
    have hw : decodeWord w = i := by simpa [hc] using hoff
    cases hh : s.edge.cmdHold <;> simp [State.due, State.cmdValid, hp, hc, hh, hw]

/-- Every edge without reset, with a host that spares the command's buffers, is one of the command's moves. -/
theorem Serves.step {i : Instr} {s : State} (h : Serves i s) (he : s.edge.spares i.len.toNat) :
    ∃ u, step s = .next (endEdge s.edge u) ∧ CommandMove i s s.portEvent u := by
  have hm : hostMisuse s = none := hostMisuse_none_of_spares (fun hp => by rw [h.len hp]) he
  obtain ⟨hr, -⟩ := he
  by_cases hp : s.phase = .idle
  · have hdue := h.due_of_idle hp
    rw [portEvent_of_not_run (by simp [hp])]
    cases hh : s.edge.cmdHold with
    | true =>
      rw [hh, if_pos rfl] at hdue
      exact ⟨s, step_of_no_due hm hr hdue, .wait fun ⟨_, _, _, hc⟩ => by simp [hc hp] at hh⟩
    | false =>
      rw [hh, if_neg (by decide)] at hdue
      exact ⟨_, by rw [step_of_due hm hr hdue, exec_of_idle i hp]; rfl, .accept hp⟩
  · obtain ⟨u, hu, hmove⟩ := exec_move (i := i) (h.reg hp) (h.mode hp).symm hr hp
    have hdue : s.due = some i := by
      rw [due_inProgress hp, h.mode hp, h.len hp]
      cases i <;> rfl
    exact ⟨u, by rw [step_of_due hm hr hdue, hu]; rfl, hmove⟩

/-! ### A whole command -/

/-- The transactions of the pixel step that are performed when a stage is reached. -/
def PixelStage.performed : PixelStage → Nat
  | .readRed => 0
  | .readGreen _ => 1
  | .readBlue _ _ => 2
  | .writeFirst _ _ _ => 3
  | .writeSecond _ _ _ => 4

@[simp] theorem PixelStage.performed_readRed : PixelStage.readRed.performed = 0 := rfl

/-- A bound on the moves other than waits that are left to a command before it responds: at most five transactions for each
of the pixels left, which are 4 bytes each, and the finish. The bound in `IDLE` is above that of every length. -/
def State.movesLeft (s : State) : Nat :=
  match s.phase with
  | .idle => 2 ^ 33
  | .run => 2 * (s.len.toNat - 4 * s.pix.toNat) + 1 - s.stage.performed
  | .resp => 0

theorem movesLeft_of_run {s : State} (hp : s.phase = .run) :
    s.movesLeft = 2 * (s.len.toNat - 4 * s.pix.toNat) + 1 - s.stage.performed := by
  simp [State.movesLeft, hp]

theorem movesLeft_endEdge (e : Edge) (s : State) : (endEdge e s).movesLeft = s.movesLeft := rfl

theorem movesLeft_withScript (l : List Edge) (s : State) : (s.withScript l).movesLeft = s.movesLeft := rfl

theorem movesLeft_accept (m : Mode) (len : Len) (s : State) : (accept m len s).movesLeft < 2 ^ 33 := by
  have := len.isLt
  cases hv : lengthValid len
  · rw [accept_of_invalid m hv]
    simp [State.movesLeft]
  · rw [accept_of_valid m hv]
    simp only [State.movesLeft]
    omega

theorem Transaction.frame {s u : State} {ev : PortEvent} (h : Transaction s ev u) :
    u.phase = s.phase ∧ u.mode = s.mode ∧ u.len = s.len ∧ u.src = s.src ∧ u.nativeByteOrder = s.nativeByteOrder ∧
      u.responses = s.responses := by
  cases h <;> simp [Machine.nextPixel]

theorem PixelStage.performed_le (g : PixelStage) : g.performed ≤ 4 := by
  cases g <;> simp [PixelStage.performed]

theorem movesLeft_setStage_lt {s : State} (hp : s.phase = .run) (hlen : s.len.toNat % 4 = 0)
    (hl : 4 * s.pix.toNat < s.len.toNat) {g : PixelStage} (hg : s.stage.performed < g.performed) :
    (s.setStage g).movesLeft < s.movesLeft := by
  have := g.performed_le
  rw [movesLeft_of_run hp, movesLeft_of_run (s := s.setStage g) hp]
  simp only [State.setStage_len, State.setStage_pix, State.setStage_stage]
  omega

theorem movesLeft_nextPixel_lt {s : State} (hp : s.phase = .run) (hlen : s.len.toNat % 4 = 0)
    (hl : 4 * s.pix.toNat < s.len.toNat) : (nextPixel s).movesLeft < s.movesLeft := by
  have := s.stage.performed_le
  rw [movesLeft_of_run hp, movesLeft_of_run (s := nextPixel s) hp]
  simp only [nextPixel, State.setStage_len, State.setStage_pix, State.setStage_stage, State.setPix_len, State.setPix_pix,
    pix_succ_toNat hlen hl, PixelStage.performed_readRed]
  omega

theorem Transaction.movesLeft_lt {s u : State} {ev : PortEvent} (h : Transaction s ev u) (hp : s.phase = .run)
    (hlen : s.len.toNat % 4 = 0) (hl : 4 * s.pix.toNat < s.len.toNat) : u.movesLeft < s.movesLeft := by
  cases h with
  | readRed hg => exact movesLeft_setStage_lt hp hlen hl (by simp [hg, PixelStage.performed])
  | readGreen r hg => exact movesLeft_setStage_lt hp hlen hl (by simp [hg, PixelStage.performed])
  | readBlue r g hg => exact movesLeft_setStage_lt hp hlen hl (by simp [hg, PixelStage.performed])
  | nativeWrite => exact movesLeft_nextPixel_lt (s := s.setDst _) hp hlen hl
  | swappedFirst r g b _ hg => exact movesLeft_setStage_lt (s := s.setDst _) hp hlen hl (by simp [hg, PixelStage.performed])
  | swappedSecond => exact movesLeft_nextPixel_lt (s := s.setDst _) hp hlen hl

/-- A move that is neither a wait nor the response brings the response nearer. -/
theorem CommandMove.wait_or_progress {i : Instr} {s u : State} {ev : Option PortEvent} (h : CommandMove i s ev u)
    (hreg : s.phase ≠ .idle → RegInv s) :
    (¬ s.suppliedBy s.edge ∧ u = s) ∨ u.movesLeft < s.movesLeft ∨ (s.phase = .resp ∧ s.edge.rspReady = true) := by
  cases h with
  | wait h => exact .inl ⟨h, rfl⟩
  | accept hp => exact .inr (.inl (by simpa [State.movesLeft, hp] using movesLeft_accept i.mode i.len s))
  | transaction hp hl h =>
    exact .inr (.inl (h.movesLeft_lt hp ((hreg (by simp [hp])).len_valid_of_run hp) hl))
  | finish hp hl => exact .inr (.inl (by
      have hg : s.stage = .readRed := by
        by_contra hne
        obtain ⟨-, hlt⟩ := (hreg (by simp [hp])).stage_in_run hne
        omega
      simp [State.movesLeft, hp, hg]))
  | respond hp hr => exact .inr (.inr ⟨hp, hr⟩)

@[simp] theorem accept_mode (m : Mode) (len : Len) (s : State) : (accept m len s).mode = m := by
  cases hv : lengthValid len
  · rw [accept_of_invalid m hv]
  · rw [accept_of_valid m hv]

theorem accept_phase_ne_idle (m : Mode) (len : Len) (s : State) : (accept m len s).phase ≠ .idle := by
  rw [accept_phase]
  split <;> simp

theorem Transaction.regInv {s u : State} {ev : PortEvent} (h : Transaction s ev u) (hreg : RegInv s)
    (hp : s.phase = .run) (hl : 4 * s.pix.toNat < s.len.toNat) : RegInv u := by
  cases h with
  | readRed => exact hreg.setStage hp hl _ (fun _ _ _ e => by cases e)
  | readGreen => exact hreg.setStage hp hl _ (fun _ _ _ e => by cases e)
  | readBlue => exact hreg.setStage hp hl _ (fun _ _ _ e => by cases e)
  | nativeWrite => exact (hreg.setDst _).nextPixel hp hl
  | swappedFirst r g b hm => exact (hreg.setDst (applyLanes ..)).setStage hp hl _ (fun _ _ _ _ => hm)
  | swappedSecond => exact (hreg.setDst _).nextPixel hp hl

/-- A command between its handover and its response is served in every state it can be in there. -/
theorem serves_of_not_idle {i : Instr} {s : State} (hp : s.phase ≠ .idle) (hreg : RegInv s) (hm : s.mode = i.mode)
    (hlen : s.len = i.len) : Serves i s :=
  ⟨fun hidle => absurd hidle hp, fun _ => hreg, fun _ => hm, fun _ => hlen⟩

/-- Until its response is taken the command goes on being served, and no response is added. -/
theorem CommandMove.serves {i : Instr} {s u : State} {ev : Option PortEvent} (h : CommandMove i s ev u)
    (hs : Serves i s) (hr : ¬ (s.phase = .resp ∧ s.edge.rspReady = true)) : Serves i u ∧ u.responses = s.responses := by
  cases h with
  | wait => exact ⟨hs, rfl⟩
  | accept =>
    obtain ⟨-, -, hrsp, -⟩ := accept_frame i.mode i.len s
    exact ⟨serves_of_not_idle (accept_phase_ne_idle i.mode i.len s) (regInv_accept ..) (accept_mode ..)
      (accept_len ..), hrsp⟩
  | transaction hp hl h =>
    have hne : s.phase ≠ .idle := by simp [hp]
    obtain ⟨hphase, hmode, hlen, -, -, hrsp⟩ := h.frame
    exact ⟨serves_of_not_idle (by simp [hphase, hp]) (h.regInv (hs.reg hne) hp hl) (hmode.trans (hs.mode hne))
      (hlen.trans (hs.len hne)), hrsp⟩
  | finish hp hl =>
    have hne : s.phase ≠ .idle := by simp [hp]
    exact ⟨serves_of_not_idle (by simp) ((hs.reg hne).finish hp hl) (hs.mode hne) (hs.len hne), rfl⟩
  | respond hp hrdy => exact absurd ⟨hp, hrdy⟩ hr

/-- A run that waits only until it is supplied, and else comes nearer to its end, ends: `R k t` says that the run is in
state `t` after `k` edges. -/
theorem ends_of_supplied {R : Nat → State → Prop} {env : Nat → Edge} {Ends : Prop}
    (hsupply : ∀ k t, R k t → ∃ j, k ≤ j ∧ t.suppliedBy (env j))
    (hedge : ∀ k t, R k t → Ends ∨ ∃ u, R (k + 1) u ∧ (u.movesLeft < t.movesLeft ∨
      (¬ t.suppliedBy (env k) ∧ u.movesLeft = t.movesLeft ∧ ∀ j, t.suppliedBy (env j) → u.suppliedBy (env j))))
    {k : Nat} {t : State} (h : R k t) : Ends := by
  induction hn : t.movesLeft using Nat.strong_induction_on generalizing k t with
  | _ n ih =>
    obtain ⟨j, hkj, hj⟩ := hsupply k t h
    induction hd : j - k generalizing k t with
    | zero =>
      obtain rfl : k = j := by omega
      obtain he | ⟨u, hu, hlt | ⟨hno, -⟩⟩ := hedge k t h
      · exact he
      · exact ih _ (hn ▸ hlt) hu rfl
      · exact absurd hj hno
    | succ d ihd =>
      obtain he | ⟨u, hu, hlt | ⟨-, heq, hkeep⟩⟩ := hedge k t h
      · exact he
      · exact ih _ (hn ▸ hlt) hu rfl
      · exact ihd hu (heq.trans hn) (by omega) (hkeep j hj) (by omega)

/-- A run from `s` is in state `t` after `k` edges of the environment, serves command `i`, and has had no response taken. -/
structure ServedRun (i : Instr) (s : State) (env : Nat → Edge) (k : Nat) (t : State) : Prop where
  run : runEdges k (s.under env k) = .next t
  serves : Serves i t
  responses : t.responses = s.responses

/-- A command that is answered ends (R118), with every property `P` of its runs that each move but the last keeps. -/
theorem command_responds {i : Instr} {s : State} {env : Nat → Edge} {P : Nat → State → Prop} (hs : Serves i s)
    (hspares : ∀ j, (env j).spares i.len.toNat) (hans : s.answeredBy env) (hinit : P 0 (s.under env 0))
    (hkeep : ∀ k t u, ServedRun i s env k t → P k t →
      CommandMove i (t.withScript [env k]) (t.withScript [env k]).portEvent u → u.responses = t.responses →
      P (k + 1) (endEdge (env k) u)) :
    ∃ k t, ServedRun i s env k t ∧ P k t ∧ t.phase = .resp ∧
      runEdges (k + 1) (s.under env (k + 1)) =
        .next (endEdge (env k) (((t.withScript [env k]).pushResponse t.rspWord).setPhase .idle)) := by
  refine ends_of_supplied (env := env) (R := fun k t => ServedRun i s env k t ∧ P k t)
    (fun k t ⟨h, _⟩ => hans.supply h.run h.responses) (fun k t ⟨h, hP⟩ => ?_)
    (k := 0) ⟨⟨rfl, serves_withScript hs _, rfl⟩, hinit⟩
  have ht := serves_withScript h.serves [env k]
  obtain ⟨u, hstep, hmove⟩ := ht.step (hspares k)
  obtain ⟨hnext, -⟩ := run_under_succ h.run
  rw [hstep] at hnext
  by_cases hend : t.phase = .resp ∧ (env k).rspReady = true
  · obtain ⟨hp, hrdy⟩ := hend
    refine .inl ⟨k, t, h, hP, hp, ?_⟩
    rw [hnext, hmove.of_respond hp hrdy]
    rfl
  · obtain ⟨hserves, hsame⟩ := hmove.serves ht hend
    have hrun : ServedRun i s env (k + 1) (endEdge (env k) u) :=
      ⟨hnext, serves_endEdge hserves _, hsame.trans h.responses⟩
    refine .inr ⟨_, ⟨hrun, hkeep k t u h hP hmove hsame⟩, ?_⟩
    rw [movesLeft_endEdge, ← movesLeft_withScript [env k] t]
    obtain ⟨hwait, rfl⟩ | hlt | hdone := hmove.wait_or_progress ht.reg
    · refine .inr ⟨hwait, rfl, fun j hj => ?_⟩
      rwa [suppliedBy_endEdge, suppliedBy_withScript]
    · exact .inl hlt
    · exact absurd hdone hend

/-! ### The transactions of a whole command (R32, R34, R36) -/

/-- The transactions that program order puts before the one due in state `s`, over the source bytes `src`: those of the
pixels below `PIX` and the ones performed of the pixel in work. -/
def State.portsDone (src : Memory) (s : State) : List PortEvent :=
  if s.phase = .idle then []
  else
    commandTrace s.mode s.nativeByteOrder src s.pix.toNat ++
      (pixelTrace s.mode s.nativeByteOrder src s.pix).take s.stage.performed

theorem portsDone_of_idle {src : Memory} {s : State} (hp : s.phase = .idle) : s.portsDone src = [] := by
  simp [State.portsDone, hp]

theorem portsDone_of_not_idle {src : Memory} {s : State} (hp : s.phase ≠ .idle) :
    s.portsDone src = commandTrace s.mode s.nativeByteOrder src s.pix.toNat ++
      (pixelTrace s.mode s.nativeByteOrder src s.pix).take s.stage.performed := by
  simp [State.portsDone, hp]

theorem portsDone_setStage {src : Memory} {s : State} {g : PixelStage} (hp : s.phase ≠ .idle) :
    (s.setStage g).portsDone src = commandTrace s.mode s.nativeByteOrder src s.pix.toNat ++
      (pixelTrace s.mode s.nativeByteOrder src s.pix).take g.performed := by
  simp [State.portsDone, hp]

theorem portsDone_setDst_setStage (src m : Memory) (s : State) (g : PixelStage) :
    ((s.setDst m).setStage g).portsDone src = (s.setStage g).portsDone src := rfl

theorem portsDone_nextPixel_setDst (src m : Memory) (s : State) :
    (nextPixel (s.setDst m)).portsDone src = (nextPixel s).portsDone src := rfl

theorem commandTrace_succ (m : Mode) (o : ByteOrder) (src : Memory) (n : Nat) :
    commandTrace m o src (n + 1) = commandTrace m o src n ++ pixelTrace m o src (BitVec.ofNat 29 n) := by
  simp [commandTrace, List.range_succ]

/-- Between two pixels the transactions done are those of the pixels below `PIX`. -/
theorem portsDone_of_readRed {src : Memory} {s : State} (hp : s.phase ≠ .idle) (hg : s.stage = .readRed) :
    s.portsDone src = commandTrace s.mode s.nativeByteOrder src s.pix.toNat := by
  simp [portsDone_of_not_idle hp, hg]

/-- The end of a pixel step adds the pixel's transactions to those of the pixels before it. -/
theorem portsDone_nextPixel {src : Memory} {s : State} (hp : s.phase = .run) (hlen : s.len.toNat % 4 = 0)
    (hl : 4 * s.pix.toNat < s.len.toNat) :
    (nextPixel s).portsDone src = commandTrace s.mode s.nativeByteOrder src s.pix.toNat ++
      pixelTrace s.mode s.nativeByteOrder src s.pix := by
  have hpix : (nextPixel s).pix.toNat = s.pix.toNat + 1 := pix_succ_toNat hlen hl
  have hne : (nextPixel s).phase ≠ .idle := by simp [nextPixel, hp]
  rw [portsDone_of_readRed hne rfl, hpix, commandTrace_succ, BitVec.ofNat_toNat, BitVec.setWidth_eq]
  rfl

theorem accept_stage (m : Mode) (len : Len) (s : State) : (accept m len s).stage = .readRed := by
  cases hv : lengthValid len
  · rw [accept_of_invalid m hv]
  · rw [accept_of_valid m hv]

theorem accept_pix (m : Mode) (len : Len) (s : State) : (accept m len s).pix = 0 := by
  cases hv : lengthValid len
  · rw [accept_of_invalid m hv]
  · rw [accept_of_valid m hv]

theorem portsDone_accept (m : Mode) (len : Len) (s : State) (src : Memory) : (accept m len s).portsDone src = [] := by
  rw [portsDone_of_readRed (accept_phase_ne_idle m len s) (accept_stage m len s), accept_pix]
  rfl

theorem heldBytesRight_of_readRed {s : State} (hg : s.stage = .readRed) : s.heldBytesRight := by
  simp [State.heldBytesRight, hg]

section Held

variable {s u : State} {ev : PortEvent} {src : Memory}

/-- A read of the pixel in work takes the byte the command was given, since the host spares the bytes below `LEN` (R109). -/
theorem memRead_eq_sourceByte (hlen : s.len.toNat % 4 = 0) (hl : 4 * s.pix.toNat < s.len.toNat)
    (hsrc : ∀ a, a < s.len.toNat → Memory.read s.src a = Memory.read src a) {k : Nat} (hk : k < 4) :
    memRead s.src (sourceOffset s.pix k) = (s.setSrc src).sourceByte k := by
  rw [memRead_sourceOffset _ _ hk, hsrc _ (by omega)]
  rfl

/-- A transaction adds a byte of the pixel to those held, or keeps or drops them. -/
theorem Transaction.heldBytesRight (h : Transaction s ev u) (hlen : s.len.toNat % 4 = 0)
    (hl : 4 * s.pix.toNat < s.len.toNat) (hsrc : ∀ a, a < s.len.toNat → Memory.read s.src a = Memory.read src a)
    (hheld : (s.setSrc src).heldBytesRight) : (u.setSrc src).heldBytesRight := by
  have hread : ∀ k, k < 4 → memRead s.src (sourceOffset s.pix k) = (s.setSrc src).sourceByte k :=
    fun k hk => memRead_eq_sourceByte hlen hl hsrc hk
  simp only [State.heldBytesRight, State.setSrc_stage] at hheld
  cases h with
  | readRed hg => exact hread 0 (by decide)
  | readGreen r hg =>
    rw [hg] at hheld
    exact ⟨hheld, hread 1 (by decide)⟩
  | readBlue r g hg =>
    rw [hg] at hheld
    obtain ⟨hr, hgreen⟩ := hheld
    exact ⟨hr, hgreen, hread 2 (by decide)⟩
  | nativeWrite => trivial
  | swappedFirst r g b hm hg =>
    rw [hg] at hheld
    exact hheld
  | swappedSecond => trivial

/-- A transaction is the next one of the program order. -/
theorem Transaction.portsDone (h : Transaction s ev u) (hp : s.phase = .run) (hlen : s.len.toNat % 4 = 0)
    (hl : 4 * s.pix.toNat < s.len.toNat) (hsrc : ∀ a, a < s.len.toNat → Memory.read s.src a = Memory.read src a)
    (hheld : (s.setSrc src).heldBytesRight) : u.portsDone src = s.portsDone src ++ [ev] := by
  have hne : s.phase ≠ .idle := by simp [hp]
  have hread : ∀ k, k < 4 → memRead s.src (sourceOffset s.pix k) = memRead src (sourceOffset s.pix k) :=
    fun k hk => (memRead_eq_sourceByte hlen hl hsrc hk).trans (memRead_sourceOffset _ _ hk).symm
  have hbyte : ∀ k, k < 4 → (s.setSrc src).sourceByte k = memRead src (sourceOffset s.pix k) :=
    fun k hk => (memRead_sourceOffset _ _ hk).symm
  simp only [State.heldBytesRight, State.setSrc_stage] at hheld
  rw [portsDone_of_not_idle hne]
  cases h with
  | readRed hg =>
    rw [portsDone_setStage hne, hg, hread 0 (by decide), List.append_assoc]
    rfl
  | readGreen r hg =>
    rw [portsDone_setStage hne, hg, hread 1 (by decide), List.append_assoc]
    rfl
  | readBlue r g hg =>
    rw [portsDone_setStage hne, hg, hread 2 (by decide), List.append_assoc]
    rfl
  | nativeWrite r g b hm hg =>
    rw [hg] at hheld
    obtain ⟨rfl, rfl, rfl⟩ := hheld
    rw [portsDone_nextPixel_setDst, portsDone_nextPixel hp hlen hl, hg]
    simp [hm, pixelTrace, PixelStage.performed, hbyte]
  | swappedFirst r g b hm hg =>
    rw [hg] at hheld
    obtain ⟨rfl, rfl, rfl⟩ := hheld
    rw [portsDone_setDst_setStage, portsDone_setStage hne, hg]
    simp [hm, pixelTrace, PixelStage.performed, hbyte]
  | swappedSecond r g b hm hg =>
    rw [hg] at hheld
    obtain ⟨rfl, rfl, rfl⟩ := hheld
    rw [portsDone_nextPixel_setDst, portsDone_nextPixel hp hlen hl, hg]
    simp [hm, pixelTrace, PixelStage.performed, hbyte]

end Held

/-- What holds after `k` edges of a run from `s`, until the response is taken: the source bytes of the command are those it
was given, and the transactions performed are the first ones of the program order. -/
structure InProgramOrder (i : Instr) (s : State) (env : Nat → Edge) (k : Nat) (t : State) : Prop where
  order : t.nativeByteOrder = s.nativeByteOrder
  src : ∀ a, a < i.len.toNat → Memory.read t.src a = Memory.read s.src a
  held : t.phase ≠ .idle → (t.setSrc s.src).heldBytesRight
  ports : trace k (s.under env k) = t.portsDone s.src

theorem endEdge_portsDone (src : Memory) (e : Edge) (s : State) : (endEdge e s).portsDone src = s.portsDone src := rfl

/-- A move of the command leaves `SRC` and the native byte order alone. -/
theorem CommandMove.frame {i : Instr} {s u : State} {ev : Option PortEvent} (h : CommandMove i s ev u) :
    u.src = s.src ∧ u.nativeByteOrder = s.nativeByteOrder := by
  cases h with
  | accept =>
    obtain ⟨hsrc, -, -, horder, -⟩ := accept_frame i.mode i.len s
    exact ⟨hsrc, horder⟩
  | transaction _ _ h =>
    obtain ⟨-, -, -, hsrc, horder, -⟩ := h.frame
    exact ⟨hsrc, horder⟩
  | _ => exact ⟨rfl, rfl⟩

/-- A move before the response keeps the held bytes right and adds to the transactions done what is seen on the ports. -/
theorem CommandMove.portsDone {i : Instr} {s u : State} {ev : Option PortEvent} {src : Memory} (h : CommandMove i s ev u)
    (hs : Serves i s) (hsrc : ∀ a, a < i.len.toNat → Memory.read s.src a = Memory.read src a)
    (hheld : s.phase ≠ .idle → (s.setSrc src).heldBytesRight) (hrsp : u.responses = s.responses) :
    (u.phase ≠ .idle → (u.setSrc src).heldBytesRight) ∧ u.portsDone src = s.portsDone src ++ ev.toList := by
  cases h with
  | wait => exact ⟨hheld, by simp⟩
  | accept hp =>
    exact ⟨fun _ => heldBytesRight_of_readRed (accept_stage ..), by rw [portsDone_accept, portsDone_of_idle hp]; rfl⟩
  | transaction hp hl h =>
    have hne : s.phase ≠ .idle := by simp [hp]
    have hlen := (hs.reg hne).len_valid_of_run hp
    rw [← hs.len hne] at hsrc
    exact ⟨fun _ => h.heldBytesRight hlen hl hsrc (hheld hne), h.portsDone hp hlen hl hsrc (hheld hne)⟩
  | finish hp =>
    have hne : s.phase ≠ .idle := by simp [hp]
    refine ⟨fun _ => hheld hne, ?_⟩
    rw [portsDone_of_not_idle hne, portsDone_of_not_idle (by simp)]
    simp
  | respond => simp at hrsp

theorem InProgramOrder.move {i : Instr} {s t u : State} {env : Nat → Edge} {k : Nat}
    (h : InProgramOrder i s env k t) (hrun : ServedRun i s env k t) (he : (env k).spares i.len.toNat)
    (hmove : CommandMove i (t.withScript [env k]) (t.withScript [env k]).portEvent u)
    (hrsp : u.responses = t.responses) : InProgramOrder i s env (k + 1) (endEdge (env k) u) := by
  obtain ⟨horder, hsrc, hheld, hports⟩ := h
  obtain ⟨hfsrc, hforder⟩ := hmove.frame
  obtain ⟨-, hsrcWrites, -⟩ := he
  obtain ⟨-, htrace, -⟩ := run_under_succ hrun.run
  obtain ⟨hheld', hdone⟩ := hmove.portsDone (serves_withScript hrun.serves _) hsrc hheld hrsp
  refine ⟨hforder.trans horder, fun a ha => ?_, hheld', ?_⟩
  · have hother : ∀ c ∈ (env k).srcWrites, c.1.toNat ≠ a := fun c hc hca => by
      have := hsrcWrites c hc
      omega
    exact (hostWriteSrc_read u.src _ a hother).trans (by rw [hfsrc]; exact hsrc a ha)
  · rw [htrace, hports, endEdge_portsDone, hdone]
    rfl

/-- In `RESP` the transactions done are all of a valid command, none of an invalid one. -/
theorem portsDone_of_resp {src : Memory} {s : State} (hreg : RegInv s) (hp : s.phase = .resp) :
    (s.len.toNat % 4 = 0 → s.portsDone src = commandTrace s.mode s.nativeByteOrder src (s.len.toNat / 4)) ∧
      (s.len.toNat % 4 ≠ 0 → s.portsDone src = []) := by
  have hg : s.stage = .readRed := by
    by_contra hne
    obtain ⟨hrun, -⟩ := hreg.stage_in_run hne
    simp [hp] at hrun
  rw [portsDone_of_readRed (by simp [hp]) hg]
  refine ⟨fun hvalid => ?_, fun hinvalid => ?_⟩
  · have := hreg.resp_done hp hvalid
    rw [show s.pix.toNat = s.len.toNat / 4 by omega]
  · obtain ⟨-, -, hpix, -⟩ := hreg.invalid_result hinvalid
    rw [hpix]
    rfl

/-- Settles O49: every edge of the run performs the next transaction of the program order or none, the response comes when
all are performed, and the edge that takes it performs none. -/
theorem commandPortTrace : Obligations.CommandPortTrace := by
  intro s w rest env hp hc hspares hans
  have hs : Serves (decodeWord w) s :=
    ⟨fun _ => by simp [hc], fun hne => absurd hp hne, fun hne => absurd hp hne, fun hne => absurd hp hne⟩
  have hinit : InProgramOrder (decodeWord w) s env 0 (s.under env 0) :=
    ⟨rfl, fun _ _ => rfl, fun hne => absurd hp hne, (portsDone_of_idle hp).symm⟩
  obtain ⟨k, t, hrun, hord, hresp, hend⟩ := command_responds hs hspares hans hinit
    (fun k t u hrun hord hmove hsame => hord.move hrun (hspares k) hmove hsame)
  obtain ⟨hrun, ht, hrsp⟩ := hrun
  have hne : t.phase ≠ .idle := by simp [hresp]
  have htrace : trace (k + 1) (s.under env (k + 1)) = t.portsDone s.src := by
    obtain ⟨-, htrace, -⟩ := run_under_succ hrun
    rw [htrace, hord.ports, portEvent_of_not_run (by simp [hresp])]
    simp
  obtain ⟨hvalid, hinvalid⟩ := portsDone_of_resp (src := s.src) (ht.reg hne) hresp
  rw [ht.len hne, ht.mode hne, hord.order] at hvalid
  rw [ht.len hne] at hinvalid
  refine ⟨k + 1, _, hend, rfl, ?_, fun h => htrace.trans (hvalid h), fun h => htrace.trans (hinvalid h)⟩
  simp [endEdge_eq, hrsp]

end Sys2Proof.Machine

/-!
PROOFS. The command and response words (30_encoding.md): the decoder and the encoder field by field and as inverses, the
rows of the opcode map, the word of a written line, the handover of a command, and the response word.
-/

namespace Sys2Proof

/-! ### The fields of a decoded word -/

theorem decodeWord_mode (w : CmdWord) :
    (decodeWord w).mode = if w.getLsbD 31 then .bigEndianSwapped else .packedNative := by
  cases h : w.getLsbD 31 <;> simp only [decodeWord, h, Bool.false_eq_true, if_true, if_false, Instr.mode]

theorem decodeWord_len (w : CmdWord) : (decodeWord w).len = w.extractLsb' 0 31 := by
  cases h : w.getLsbD 31 <;> simp only [decodeWord, h, Bool.false_eq_true, if_true, if_false, Instr.len]

/-- `LEN` is bits 30 to 0 of the word (R46). -/
theorem decodeWord_len_toNat (w : CmdWord) : (decodeWord w).len.toNat = w.toNat % 2 ^ 31 := by
  rw [decodeWord_len, BitVec.extractLsb'_toNat, Nat.shiftRight_zero]

/-- `MODE` is bit 31 of the word (R45). -/
theorem decodeWord_mode_bit_toNat (w : CmdWord) : (decodeWord w).mode.bit.toNat = w.toNat / 2 ^ 31 := by
  have hw := w.isLt
  have hbit : w.getLsbD 31 = decide (w.toNat / 2 ^ 31 % 2 = 1) := Nat.testBit_eq_decide_div_mod_eq
  obtain h | h : w.toNat / 2 ^ 31 = 0 ∨ w.toNat / 2 ^ 31 = 1 := by omega
  all_goals rw [decodeWord_mode, hbit, h]; rfl

/-! ### Decoder and encoder as inverses -/

/-- The type of the operand leaves no ill-formed command (R48). -/
theorem Instr.wellFormed_eq_true (i : Instr) : i.wellFormed = true := decide_eq_true i.len.isLt

theorem Mode.bit_toNat_injective {m m' : Mode} (h : m.bit.toNat = m'.bit.toNat) : m = m' := by
  revert h
  cases m <;> cases m' <;> decide

theorem Instr.ofModeLen_mode_len (i : Instr) : Instr.ofModeLen i.mode i.len = i := by cases i <;> rfl

/-- A command is its mode and its length (R44). -/
theorem Instr.eq_of_mode_len {i j : Instr} (hm : i.mode = j.mode) (hl : i.len = j.len) : i = j := by
  rw [← i.ofModeLen_mode_len, ← j.ofModeLen_mode_len, hm, hl]

/-- Nothing of a word is lost in decoding it. -/
theorem encode_decodeWord (w : CmdWord) : encode (decodeWord w) = w := by
  apply BitVec.eq_of_toNat_eq
  rw [encode_toNat, decodeWord_mode_bit_toNat, decodeWord_len_toNat]
  exact Nat.div_add_mod w.toNat (2 ^ 31)

/-- Both fields of a command come back from its word. -/
theorem decodeWord_encode (i : Instr) : decodeWord (encode i) = i := by
  obtain ⟨hmode, hlen⟩ := Laws.EncodingFields.of_toNat i
  apply Instr.eq_of_mode_len
  · exact Mode.bit_toNat_injective ((decodeWord_mode_bit_toNat _).trans hmode)
  · exact BitVec.eq_of_toNat_eq ((decodeWord_len_toNat _).trans hlen)

/-- The table's decoder refuses no 32-bit word (R48). -/
theorem decodeTableWord_toNat (w : CmdWord) : decodeTableWord 32 w.toNat = some (decodeWord w) := by
  simp only [decodeTableWord, decodeBits, w.isLt, if_true, BitVec.ofNat_toNat, BitVec.setWidth_eq]

/-- Settles O3: the table's decoder is the decoder on words, and that one reads both fields back. -/
theorem decodeOfEncode : Obligations.DecodeOfEncode := by
  intro i _
  exact ⟨by rw [decodeTableWord_toNat, decodeWord_encode], decodeWord_encode i⟩

/-- Settles O4: the word is `MODE` above `LEN`, and the decoder keeps both. -/
theorem encodeOfDecode : Obligations.EncodeOfDecode := fun w =>
  ⟨(decodeWord w).wellFormed_eq_true, encode_decodeWord w, decodeTableWord_toNat w⟩

/-! ### The opcode map -/

/-- The mask of both rows keeps bit 31, which is `MODE` (R47). -/
theorem and_opcodeMask (w : CmdWord) : w &&& 0x80000000#32 = if w.getLsbD 31 then 0x80000000#32 else 0#32 :=
  BitVec.and_twoPow w 31

/-- A row matches the words of its mode. -/
theorem covers_iff_mode {r : OpcodeRow} (hr : r ∈ opcodeRows) (w : CmdWord) :
    r.covers w = true ↔ (decodeWord w).mode = r.mode := by
  simp only [opcodeRows, List.mem_cons, List.not_mem_nil, or_false] at hr
  obtain rfl | rfl := hr <;> cases h : w.getLsbD 31 <;> simp [OpcodeRow.covers, and_opcodeMask, decodeWord_mode, h]

/-- Each mode has its row. -/
theorem exists_opcodeRow (m : Mode) : ∃ r ∈ opcodeRows, m = r.mode := by cases m <;> decide

/-- No mode has two rows. -/
theorem opcodeRow_eq_of_mode : ∀ r ∈ opcodeRows, ∀ r' ∈ opcodeRows, r'.mode = r.mode → r' = r := by decide

/-- Settles O2: a row matches the words of its mode, and each mode has exactly one row. -/
theorem everyWordMatchesOneRow : Obligations.EveryWordMatchesOneRow := by
  intro w
  constructor
  · obtain ⟨r, hr, hmode⟩ := exists_opcodeRow (decodeWord w).mode
    refine ⟨r, hr, (covers_iff_mode hr w).2 hmode, fun r' hr' hcov => ?_⟩
    exact opcodeRow_eq_of_mode r hr r' hr' (((covers_iff_mode hr' w).1 hcov).symm.trans hmode)
  · exact fun r hr hcov => ⟨(covers_iff_mode hr w).1 hcov, decodeWord_len_toNat w⟩

/-! ### The word of a written line -/

theorem assembleLine_of_parseLine {line : List Char} {c : CommandLine} (h : parseLine line = some c) :
    assembleLine line = if c.wellFormed then some (encode (.ofModeLen c.mode (BitVec.ofNat 31 c.len))) else none := by
  simp only [assembleLine, h]

/-- Settles O5: a length that fits is the `LEN` of the encoded command; the two lines of R52 are evaluated. -/
theorem assembledWord : Obligations.AssembledWord := by
  refine ⟨fun line c hline => ⟨fun hlen => ?_, fun hlen => ?_⟩, by decide, by decide⟩
  · have hwf : c.wellFormed = true := decide_eq_true hlen
    refine ⟨_, by rw [assembleLine_of_parseLine hline, if_pos hwf], ?_⟩
    rw [encode_toNat, Machine.mode_ofModeLen, Machine.len_ofModeLen, BitVec.toNat_ofNat, Nat.mod_eq_of_lt hlen]
  · have hwf : ¬ c.wellFormed = true := fun h => absurd (of_decide_eq_true h) (by omega)
    rw [assembleLine_of_parseLine hline, if_neg hwf]

end Sys2Proof

namespace Sys2Proof.Machine

/-! ### The handover of a command -/

/-- In `IDLE` no prohibition on the host is in force (R109, R110). -/
theorem hostMisuse_of_idle {s : State} (hp : s.phase = .idle) : hostMisuse s = none := by simp [hostMisuse, hp]

/-- In `IDLE` the offered word's command is due (R53). -/
theorem due_of_offered {s : State} {w : CmdWord} {rest : List CmdWord} (hp : s.phase = .idle)
    (hc : s.commands = w :: rest) (hh : s.edge.cmdHold = false) : s.due = some (decodeWord w) := by
  simp [State.due, State.cmdValid, hp, hc, hh]

/-- In `IDLE` nothing is due without an offer (R53, R88). -/
theorem due_of_not_offered {s : State} (hp : s.phase = .idle) (hv : s.cmdValid = false) : s.due = none := by
  simp [State.due, hp, hv]

/-- Settles O29: the offered word's command is due, and an idle block refuses no host write. -/
theorem stepRunsOfferedCommand : Obligations.StepRunsOfferedCommand := fun _ _ _ hp hc hr hh =>
  step_of_due (hostMisuse_of_idle hp) hr (due_of_offered hp hc hh)

/-- Settles O31: without an offer nothing is due, and only the end of the edge is left of the step. -/
theorem idleBlockWaits : Obligations.IdleBlockWaits := fun _ hp hr hv =>
  step_of_no_due (hostMisuse_of_idle hp) hr (due_of_not_offered hp hv)

@[simp] theorem endEdge_mode (e : Edge) (s : State) : (endEdge e s).mode = s.mode := rfl

@[simp] theorem endEdge_commands (e : Edge) (s : State) : (endEdge e s).commands = s.commands := rfl

@[simp] theorem endEdge_script (e : Edge) (s : State) : (endEdge e s).script = s.script.tail := rfl

@[simp] theorem placeCommand_commands (s : State) (w : CmdWord) : (placeCommand s w).commands = w :: s.commands := rfl

@[simp] theorem placeCommand_script (s : State) (w : CmdWord) : (placeCommand s w).script = .quiet :: s.script := rfl

theorem withFetchWord_toNat (s : State) (w : CmdWord) : s.withFetchWord 32 w.toNat = placeCommand s w := by
  rw [State.withFetchWord, Nat.mod_eq_of_lt w.isLt, BitVec.ofNat_toNat, BitVec.setWidth_eq]

theorem accept_commands (m : Mode) (len : Len) (s : State) : (accept m len s).commands = s.commands.tail := by
  cases hv : lengthValid len
  · rw [accept_of_invalid m hv]
  · rw [accept_of_valid m hv]

/-- The step after a placing is the accept of the placed word (R72), at an edge where nothing else happens. -/
theorem step_placeCommand (s : State) (w : CmdWord) :
    step (placeCommand s w) =
      .next (endEdge .quiet (accept (decodeWord w).mode (decodeWord w).len (placeCommand s w))) := by
  rw [stepRunsOfferedCommand (placeCommand s w) w s.commands rfl rfl rfl rfl, exec_of_idle _ rfl]
  rfl

/-- Settles O32: the accept writes `MODE` and `LEN`, leaves `IDLE` and takes the placed word off the channel. -/
theorem placedWordRunsNext : Obligations.PlacedWordRunsNext := by
  intro s w
  rw [withFetchWord_toNat, step_placeCommand]
  obtain ⟨-, -, -, -, hscript, -⟩ := accept_frame (decodeWord w).mode (decodeWord w).len (placeCommand s w)
  refine ⟨_, rfl, ?_⟩
  simp [accept_phase_ne_idle, accept_commands, hscript]

/-! ### The response word -/

theorem rspWord_of_resp {s : State} (hp : s.phase = .resp) : s.rspWord = responseWord s.status s.outLen := if_pos hp

theorem rspWord_of_not_resp {s : State} (hp : s.phase ≠ .resp) : s.rspWord = 0 := if_neg hp

/-- `rsp_valid` is 1 in `RESP` at an edge without reset (R50, R105). -/
theorem rspValid_iff (s : State) : s.rspValid = true ↔ s.phase = .resp ∧ s.edge.rst = false := by
  simp [State.rspValid]

/-- With the status `OK` the response word is `OUT_LEN` as a number (R50, R54). -/
theorem responseWord_ok_toNat (n : OutLen) : (responseWord statusOk n).toNat = n.toNat := by
  have h : (responseWord statusOk n).toNat = (0 : StatusCode).toNat <<< 30 ||| n.toNat := BitVec.toNat_append _ _
  simpa using h

/-- Settles O40: the register invariant gives `STATUS` and `OUT_LEN` for a valid and for an invalid length. -/
theorem responseWords : Obligations.ResponseWords := by
  intro s hreg hvalid
  obtain ⟨hp, -⟩ := (rspValid_iff s).1 hvalid
  rw [rspWord_of_resp hp]
  by_cases hlen : s.len.toNat % 4 = 0
  · obtain ⟨hstatus, hout⟩ := hreg.valid_result hlen
    have hword : (responseWord s.status s.outLen).toNat = s.len.toNat / 2 := by
      rw [hstatus, ← hout]; exact responseWord_ok_toNat _
    have hbound := s.len.isLt
    exact .inr ⟨hlen, hword, by omega, by omega⟩
  · obtain ⟨hstatus, hout, -, -⟩ := hreg.invalid_result hlen
    exact .inl ⟨hlen, by rw [hstatus, hout]; rfl⟩

@[simp] theorem endEdge_rspWord (e : Edge) (s : State) : (endEdge e s).rspWord = s.rspWord := rfl

/-- While the response is offered, the step is the respond (R77). -/
theorem step_of_rspValid {s : State} (hv : s.rspValid = true) (hm : hostMisuse s = none) :
    step s = mapNext (endEdge s.edge) (respond s) := by
  obtain ⟨hp, hr⟩ := (rspValid_iff s).1 hv
  rw [step_of_due hm hr (due_inProgress (by simp [hp])), exec_respond _ hp]

/-- Settles O54: the respond waits with the registers as they are, or hands over the word on the line and goes to `IDLE`. -/
theorem responseWordLine : Obligations.ResponseWordLine := by
  refine fun s => ⟨rspWord_of_resp, rspWord_of_not_resp, fun hv hm => ⟨fun hrdy => ?_, fun hrdy => ?_⟩⟩ <;>
    rw [step_of_rspValid hv hm, respond, hrdy]
  · obtain ⟨hp, -⟩ := (rspValid_iff s).1 hv
    exact ⟨endEdge s.edge s, rfl, hp, rfl, rfl⟩
  · exact ⟨_, rfl, rfl, rfl, rfl⟩

end Sys2Proof.Machine

/-!
PROOFS. The truncator (40_truncator.md): what each channel keeps of its byte, as a number and under a mask of the discarded
bits, and that a command's step does not see the padding byte of a pixel.
-/

namespace Sys2Proof.Machine

/-! ### The kept bits of a channel (R56, R57, R58) -/

/-- The bits of a byte from `start` up are its quotient by `2 ^ start`. -/
theorem extractLsb'_top_toNat (x : Byte) {start len : Nat} (h : start + len = 8) :
    (x.extractLsb' start len).toNat = x.toNat / 2 ^ start := by
  have hquot : x.toNat / 2 ^ start < 2 ^ len := by
    rw [Nat.div_lt_iff_lt_mul (Nat.two_pow_pos start), ← Nat.pow_add, Nat.add_comm, h]
    exact x.isLt
  rw [BitVec.extractLsb'_toNat, Nat.shiftRight_eq_div_pow, Nat.mod_eq_of_lt hquot]

theorem trunc_r5_toNat (r g b : Byte) : (trunc r g b).r5.toNat = r.toNat / 8 := extractLsb'_top_toNat r rfl

theorem trunc_g6_toNat (r g b : Byte) : (trunc r g b).g6.toNat = g.toNat / 4 := extractLsb'_top_toNat g rfl

theorem trunc_b5_toNat (r g b : Byte) : (trunc r g b).b5.toNat = b.toNat / 8 := extractLsb'_top_toNat b rfl

/-- A mask that is all ones in a field leaves the field alone. -/
theorem extractLsb'_and_mask (x : Byte) {mask : Byte} {start len : Nat}
    (h : mask.extractLsb' start len = BitVec.allOnes len) :
    (x &&& mask).extractLsb' start len = x.extractLsb' start len := by
  rw [BitVec.extractLsb'_and, h, BitVec.and_allOnes]

/-- The discarded bits are not seen (R59). -/
theorem trunc_masked (r g b : Byte) : trunc (r &&& 0xF8#8) (g &&& 0xFC#8) (b &&& 0xF8#8) = trunc r g b := by
  have hfive : (0xF8#8).extractLsb' 3 5 = BitVec.allOnes 5 := by decide
  have hsix : (0xFC#8).extractLsb' 2 6 = BitVec.allOnes 6 := by decide
  simp only [trunc, extractLsb'_and_mask _ hfive, extractLsb'_and_mask _ hsix]

/-- Settles O6: a channel is its byte's quotient by 8 or 4, which is monotonic and names no other channel. -/
theorem truncationLaw : Obligations.TruncationLaw := by
  intro r g b
  refine ⟨trunc_r5_toNat r g b, trunc_g6_toNat r g b, trunc_b5_toNat r g b, trunc_masked r g b, fun r' g' b' => ?_⟩
  simp only [trunc_r5_toNat, trunc_g6_toNat, trunc_b5_toNat]
  exact ⟨Nat.div_le_div_right, Nat.div_le_div_right, Nat.div_le_div_right⟩

/-! ### The padding byte (R60)

Two contents of `SRC` that agree at every offset but those of padding bytes give the same step: `SRC` is read only at the
first three bytes of the pixel in work. -/

@[simp] theorem State.setSrc_edge (s : State) (m : Memory) : (s.setSrc m).edge = s.edge := rfl

@[simp] theorem State.setSrc_pixelLeft (s : State) (m : Memory) : (s.setSrc m).pixelLeft = s.pixelLeft := rfl

@[simp] theorem State.setSrc_passOver (s : State) (m : Memory) : (s.setSrc m).passOver = s.passOver := rfl

@[simp] theorem State.setSrc_rspWord (s : State) (m : Memory) : (s.setSrc m).rspWord = s.rspWord := rfl

/-- The accept reads no byte of `SRC`. -/
theorem accept_setSrc (mode : Mode) (len : Len) (s : State) (m : Memory) :
    accept mode len (s.setSrc m) = (accept mode len s).setSrc m := by
  cases hv : lengthValid len
  · rw [accept_of_invalid mode hv, accept_of_invalid mode hv]; rfl
  · rw [accept_of_valid mode hv, accept_of_valid mode hv]; rfl

theorem respond_setSrc (s : State) (m : Memory) :
    respond (s.setSrc m) = mapNext (fun t => t.setSrc m) (respond s) := by
  rw [respond, respond, State.setSrc_edge, State.setSrc_rspWord]
  split <;> rfl

/-- A write transaction reads no byte of `SRC`, if what follows it does not. -/
theorem writeTarget_setSrc (w : DstWrite) {after : State → State} {m : Memory}
    (hafter : ∀ t : State, after (t.setSrc m) = (after t).setSrc m) (s : State) :
    writeTarget w after (s.setSrc m) = mapNext (fun t => t.setSrc m) (writeTarget w after s) := by
  rw [writeTarget, writeTarget, State.setSrc_edge]
  split
  · exact congrArg Host.Outcome.next (hafter (s.setDst (applyLanes s.dst w)))
  · rfl

section Padding

variable {s : State} {m : Memory} (hagree : ∀ a, a % 4 ≠ 3 → Memory.read m a = Memory.read s.src a)
include hagree

/-- The three bytes of a pixel that are read are none of the padding bytes. -/
theorem memRead_sourceOffset_of_agree (pix : PixIndex) {k : Nat} (hk : k < 3) :
    memRead m (sourceOffset pix k) = memRead s.src (sourceOffset pix k) := by
  rw [memRead_sourceOffset m pix (by omega), memRead_sourceOffset s.src pix (by omega)]
  exact hagree _ (by omega)

theorem readSource_setSrc {k : Nat} (hk : k < 3) (next : Byte → PixelStage) :
    readSource k next (s.setSrc m) = mapNext (fun t => t.setSrc m) (readSource k next s) := by
  rw [readSource, readSource, State.setSrc_edge, State.setSrc_src, State.setSrc_pix,
    memRead_sourceOffset_of_agree hagree s.pix hk]
  split <;> rfl

theorem nativePixel_setSrc : nativePixel (s.setSrc m) = mapNext (fun t => t.setSrc m) (nativePixel s) := by
  rw [nativePixel, nativePixel, State.setSrc_stage]
  cases s.stage with
  | writeFirst r g b => exact writeTarget_setSrc _ (fun _ => rfl) s
  | writeSecond r g b => rfl
  | _ => exact readSource_setSrc hagree (by decide) _

theorem swappedPixel_setSrc : swappedPixel (s.setSrc m) = mapNext (fun t => t.setSrc m) (swappedPixel s) := by
  rw [swappedPixel, swappedPixel, State.setSrc_stage]
  cases s.stage with
  | writeFirst r g b => exact writeTarget_setSrc _ (fun _ => rfl) s
  | writeSecond r g b => exact writeTarget_setSrc _ (fun _ => rfl) s
  | _ => exact readSource_setSrc hagree (by decide) _

end Padding

/-- Around the pixel step nothing is read of `SRC`. -/
theorem commandStep_setSrc (mode : Mode) (len : Len) {pixel : State → Host.Outcome State Fault Refusal} {s : State}
    {m : Memory} (hpixel : pixel (s.setSrc m) = mapNext (fun t => t.setSrc m) (pixel s)) :
    commandStep mode len pixel (s.setSrc m) = mapNext (fun t => t.setSrc m) (commandStep mode len pixel s) := by
  rw [commandStep, commandStep, State.setSrc_phase, State.setSrc_pixelLeft, State.setSrc_passOver]
  cases s.phase with
  | idle => exact congrArg Host.Outcome.next (accept_setSrc mode len s m)
  | run =>
    cases s.pixelLeft with
    | true => exact hpixel
    | false => cases s.passOver <;> rfl
  | resp => exact respond_setSrc s m

/-- Settles O43: both pixel steps read the first three bytes of the pixel only, and the rest of a command reads nothing. -/
theorem paddingByteIgnored : Obligations.PaddingByteIgnored := by
  intro i s m hagree
  cases i with
  | convNative len => exact commandStep_setSrc _ len (nativePixel_setSrc hagree)
  | convSwapped len => exact commandStep_setSrc _ len (swappedPixel_setSrc hagree)

end Sys2Proof.Machine

/-!
PROOFS. The two packers (41_packers.md): they are one function up to the exchange of red and blue, and that function is
inverted by reading the three fields of the pixel.
-/

namespace Sys2Proof.Machine

/-! ### The formula of a packer (R61, R62) -/

/-- Settles O7: both packers are a concatenation, which is the shifts and ors of its parts. -/
theorem packerFormulas : Obligations.PackerFormulas :=
  fun _ =>
    ⟨(BitVec.setWidth_eq _).symm.trans BitVec.setWidth_append_append_eq_shiftLeft_setWidth_or,
      (BitVec.setWidth_eq _).symm.trans BitVec.setWidth_append_append_eq_shiftLeft_setWidth_or⟩

/-! ### The exchange of red and blue (R64) -/

/-- The channels with red and blue exchanged. -/
def Channels.exchange (c : Channels) : Channels := { r5 := c.b5, g6 := c.g6, b5 := c.r5 }

theorem Channels.exchange_involutive : Function.Involutive Channels.exchange := fun _ => rfl

theorem Channels.eq_exchange_iff (c : Channels) : c = c.exchange ↔ c.r5 = c.b5 := by
  obtain ⟨r, g, b⟩ := c
  constructor
  · exact congrArg Channels.r5
  · intro (h : r = b)
    rw [h, Channels.exchange]

theorem packSwapped_eq_packNative_exchange (c : Channels) : packSwapped c = packNative c.exchange := rfl

/-! ### The fields of a packed pixel (R63) -/

/-- The channels of a native pixel, read from its fields. -/
def unpackNative (v : Value16) : Channels where
  r5 := v.extractLsb' 11 5
  g6 := v.extractLsb' 5 6
  b5 := v.extractLsb' 0 5

theorem unpackNative_packNative (c : Channels) : unpackNative (packNative c) = c := by
  have hred : (packNative c).extractLsb' 11 5 = c.r5 :=
    (BitVec.extractLsb'_append_eq_of_le (by decide)).trans BitVec.extractLsb'_append_eq_left
  have hgreen : (packNative c).extractLsb' 5 6 = c.g6 :=
    (BitVec.extractLsb'_append_eq_of_le (by decide)).trans BitVec.extractLsb'_append_eq_right
  have hblue : (packNative c).extractLsb' 0 5 = c.b5 := BitVec.extractLsb'_append_eq_right
  rw [unpackNative, hred, hgreen, hblue]

theorem packNative_unpackNative (v : Value16) : packNative (unpackNative v) = v := by
  have htop : v.extractLsb' 11 5 ++ v.extractLsb' 5 6 = v.extractLsb' 5 11 :=
    BitVec.extractLsb'_append_extractLsb'_eq_extractLsb' rfl
  have hall : v.extractLsb' 5 11 ++ v.extractLsb' 0 5 = v.extractLsb' 0 16 :=
    BitVec.extractLsb'_append_extractLsb'_eq_extractLsb' rfl
  calc packNative (unpackNative v)
      = (v.extractLsb' 11 5 ++ v.extractLsb' 5 6) ++ v.extractLsb' 0 5 := rfl
    _ = v := by rw [htop, hall, BitVec.extractLsb'_eq_self]

theorem packNative_bijective : Function.Bijective packNative :=
  Function.bijective_iff_has_inverse.2 ⟨unpackNative, unpackNative_packNative, packNative_unpackNative⟩

theorem packSwapped_bijective : Function.Bijective packSwapped := by
  have hcomp : packSwapped = packNative ∘ Channels.exchange := funext packSwapped_eq_packNative_exchange
  rw [hcomp]
  exact packNative_bijective.comp Channels.exchange_involutive.bijective

/-- Settles O8: reading the fields inverts the native packer, and the swapped packer is that one after an exchange. -/
theorem packersLoseNothing : Obligations.PackersLoseNothing := by
  refine ⟨fun c => ?_, fun v => ⟨packNative_bijective.existsUnique v, packSwapped_bijective.existsUnique v⟩⟩
  have hnative := unpackNative_packNative c
  have hswapped : unpackNative (packSwapped c) = c.exchange := unpackNative_packNative c.exchange
  exact ⟨congrArg Channels.r5 hnative, congrArg Channels.g6 hnative, congrArg Channels.b5 hnative,
    congrArg Channels.r5 hswapped, congrArg Channels.g6 hswapped, congrArg Channels.b5 hswapped⟩

/-! ### Where the two packers agree (R65) -/

theorem packNative_eq_packSwapped_iff (c : Channels) : packNative c = packSwapped c ↔ c.r5 = c.b5 := by
  rw [packSwapped_eq_packNative_exchange, packNative_bijective.injective.eq_iff, Channels.eq_exchange_iff]

/-- A truncated red and a truncated blue are equal exactly when the shifted bytes are: both are the quotient by 8. -/
theorem trunc_r5_eq_b5_iff (r g b : Byte) : (trunc r g b).r5 = (trunc r g b).b5 ↔ r >>> 3 = b >>> 3 := by
  simp only [← BitVec.toNat_inj, trunc_r5_toNat, trunc_b5_toNat, BitVec.toNat_ushiftRight, Nat.shiftRight_eq_div_pow,
    Nat.reducePow]

/-- Settles O9: the exchange is seen by the injective native packer exactly when it changes the channels. -/
theorem packersAgreeOnEqualRedBlue : Obligations.PackersAgreeOnEqualRedBlue :=
  ⟨packSwapped_eq_packNative_exchange,
    fun r g b => (packNative_eq_packSwapped_iff (trunc r g b)).trans (trunc_r5_eq_b5_iff r g b)⟩

end Sys2Proof.Machine

/-!
PROOFS. The serializer (42_serializer.md): its two bytes are the halves of the value, adjacent halves join to the value, and
the two orders are one up to the exchange of the bytes.
-/

namespace Sys2Proof.Machine

/-- LITTLE is BIG with the bytes exchanged (R68). -/
theorem serialize_little_eq_swap_big (v : Value16) : serialize v .little = (serialize v .big).swap := rfl

/-- BIG in the shifts of R67: the high half for the lower offset, then the low half. -/
theorem serialize_big_eq_halves (v : Value16) : serialize v .big = ((v >>> 8).setWidth 8, v.setWidth 8) := by
  rw [serialize, extractLsb'_high_byte, extractLsb'_low_byte]

/-- The two bytes of BIG, joined, are the value (R70). -/
theorem serialize_big_append (v : Value16) : (serialize v .big).1 ++ (serialize v .big).2 = v := by
  have hjoin : v.extractLsb' 8 8 ++ v.extractLsb' 0 8 = v.extractLsb' 0 16 :=
    BitVec.extractLsb'_append_extractLsb'_eq_extractLsb' rfl
  exact hjoin.trans BitVec.extractLsb'_eq_self

/-- The mask `0xFF` keeps every bit of the low byte. -/
theorem setWidth_and_byteMask (v : Value16) : (v &&& 0xFF#16).setWidth 8 = v.setWidth 8 := by
  have hmask : (0xFF#16).setWidth 8 = BitVec.allOnes 8 := by decide
  rw [BitVec.setWidth_and, hmask, BitVec.and_allOnes]

/-- Settles O10: the masks of R67 change nothing, and what holds of BIG holds of LITTLE with the bytes exchanged. -/
theorem serializerOrders : Obligations.SerializerOrders := by
  intro v
  have hhigh : (serialize v .big).1 = (v >>> 8).setWidth 8 := congrArg Prod.fst (serialize_big_eq_halves v)
  have hlow : (serialize v .big).2 = v.setWidth 8 := congrArg Prod.snd (serialize_big_eq_halves v)
  have hrecombine := (serialize_big_append v).symm
  rw [serialize_little_eq_swap_big, setWidth_and_byteMask, setWidth_and_byteMask]
  exact ⟨hhigh, hlow, hlow, hhigh, hrecombine, hrecombine, rfl⟩

end Sys2Proof.Machine

/-!
PROOFS. The commands (43_commands.md): what each step of a command's life does, that its transactions are the atomic pixel
step, what it neither reads nor writes, the reference function, that every edge keeps the pixels below `PIX` converted, and
what a whole command leaves behind.
-/

namespace Sys2Proof.Machine

/-! ### The accept, the finish and the respond (R72, R76, R77, R95) -/

theorem outLenOf_eq_ofNat (len : Len) : outLenOf len = BitVec.ofNat 30 (len.toNat / 2) := by
  apply BitVec.eq_of_toNat_eq
  have := len.isLt
  rw [outLenOf_toNat, BitVec.toNat_ofNat]
  omega

theorem lengthValid_eq_false_iff (len : Len) : lengthValid len = false ↔ len.toNat % 4 ≠ 0 := by
  rw [← Bool.not_eq_true, lengthValid_iff]

/-- The response word of the error (R54). -/
theorem responseWord_invalidInputLength : responseWord (errorCode .invalidInputLength) 0 = 0x40000000#32 := by decide

/-- Settles O19: in `IDLE` `exec` is the accept, whose two outcomes are told apart by the length check. -/
theorem acceptStep : Obligations.AcceptStep := by
  intro i s hp
  refine ⟨portEvent_of_not_run (by simp [hp]), fun hlen => ?_, fun hlen => ?_⟩
  · rw [exec_of_idle i hp, accept_of_valid i.mode ((lengthValid_iff i.len).2 hlen), outLenOf_eq_ofNat]
  · rw [exec_of_idle i hp, accept_of_invalid i.mode ((lengthValid_eq_false_iff i.len).2 hlen)]
    exact ⟨_, rfl, (rspWord_of_resp rfl).trans responseWord_invalidInputLength, rfl⟩

/-- Settles O25: with no pixel left `exec` is the finish, and neither port has a request. -/
theorem finishStep : Obligations.FinishStep := fun i _ hp hl => ⟨exec_finish i hp hl, portEvent_of_passOver hl⟩

/-- Settles O26: in `RESP` `exec` is the respond, which hands over the word on the line or waits. -/
theorem respondStep : Obligations.RespondStep := by
  intro i s hp
  have hword : s.rspWord = s.status ++ s.outLen := rspWord_of_resp hp
  rw [exec_respond i hp, respond, hword]
  exact ⟨fun hrdy => by rw [if_pos hrdy]; rfl, fun hrdy => by simp [hrdy]⟩

/-! ### The transactions of a pixel step (R73, R74, R88) -/

/-- Settles O24: each stage the command has tries one transaction, which waits for its acknowledge. -/
theorem unacknowledgedTransactionWaits : Obligations.UnacknowledgedTransactionWaits := by
  intro i s hp hl
  constructor
  · rintro ha (hg | ⟨r, hg⟩ | ⟨r, g, hg⟩)
    · rw [exec_readRed hp hl i hg, readSource_of_no_ack ha]
    · rw [exec_readGreen hp hl i hg, readSource_of_no_ack ha]
    · rw [exec_readBlue hp hl i hg, readSource_of_no_ack ha]
  · rintro ha (⟨r, g, b, hg⟩ | ⟨hm, r, g, b, hg⟩)
    · cases hm : i.mode with
      | packedNative => rw [exec_nativeWrite hp hl hm hg, writeTarget_of_no_ack ha]
      | bigEndianSwapped => rw [exec_swappedFirst hp hl hm hg, writeTarget_of_no_ack ha]
    · rw [exec_swappedSecond hp hl hm hg, writeTarget_of_no_ack ha]

/-- Beyond the last pixel no step of R88 is enabled, for either command. -/
theorem exec_of_pix_beyond {s : State} (i : Instr) (hp : s.phase = .run) (hl : s.len.toNat < 4 * s.pix.toNat) :
    exec i s = .fault .noStepEnabled := by
  have hleft : s.pixelLeft = false := decide_eq_false (by omega)
  have hover : s.passOver = false := decide_eq_false (by omega)
  cases i <;> simp [exec, execConvNative, execConvSwapped, commandStep, hp, hleft, hover]

/-- Settles O27: the sequencer's last branch, and the native pixel step's last stage. -/
theorem faultsWhereNoStepIsEnabled : Obligations.FaultsWhereNoStepIsEnabled :=
  ⟨fun i _ hp hl => exec_of_pix_beyond i hp hl,
    fun len _ _ _ _ hp hl hg => by rw [exec_convNative_pixel hp hl len, nativePixel, hg]⟩

/-! ### The bytes of a pixel write (R61, R62, R67, R68) -/

/-- The kept bits of a channel at 16 bits are those of the shifted byte. -/
theorem trunc_setWidth (r g b : Byte) :
    (trunc r g b).r5.setWidth 16 = (r >>> 3).setWidth 16 ∧ (trunc r g b).g6.setWidth 16 = (g >>> 2).setWidth 16 ∧
      (trunc r g b).b5.setWidth 16 = (b >>> 3).setWidth 16 := by
  simp only [← BitVec.toNat_inj, BitVec.toNat_setWidth, trunc_r5_toNat, trunc_g6_toNat, trunc_b5_toNat,
    BitVec.toNat_ushiftRight, Nat.shiftRight_eq_div_pow, Nat.reducePow, and_self]

/-- The native pixel in the shifts of the source document: red on top (R61). -/
theorem packNative_trunc (r g b : Byte) : packNative (trunc r g b) =
    ((b >>> 3).setWidth 16) ||| ((g >>> 2).setWidth 16 <<< 5) ||| ((r >>> 3).setWidth 16 <<< 11) := by
  obtain ⟨hnative, -⟩ := packerFormulas (trunc r g b)
  obtain ⟨hr, hg, hb⟩ := trunc_setWidth r g b
  rw [hnative, hr, hg, hb, BitVec.or_comm, BitVec.or_assoc]
  exact congrArg _ (BitVec.or_comm _ _)

/-- The swapped pixel in the shifts of the source document: blue on top (R62). -/
theorem packSwapped_trunc (r g b : Byte) : packSwapped (trunc r g b) =
    ((b >>> 3).setWidth 16 <<< 11) ||| ((g >>> 2).setWidth 16 <<< 5) ||| ((r >>> 3).setWidth 16) := by
  obtain ⟨-, hswapped⟩ := packerFormulas (trunc r g b)
  obtain ⟨hr, hg, hb⟩ := trunc_setWidth r g b
  rw [hswapped, hr, hg, hb]

/-- The two bytes of a swapped pixel, the most significant first (R67, R69). -/
theorem pixelBytes_swapped (o : ByteOrder) (r g b : Byte) :
    pixelBytes .bigEndianSwapped o r g b =
      ((packSwapped (trunc r g b) >>> 8).setWidth 8, (packSwapped (trunc r g b)).setWidth 8) :=
  serialize_big_eq_halves _

/-- The two bytes of a native pixel, in the native order (R67, R68, R69). -/
theorem pixelBytes_native (o : ByteOrder) (r g b : Byte) :
    pixelBytes .packedNative o r g b = serialize (packNative (trunc r g b)) o := rfl

/-- Settles O21: the write stores the serializer's two bytes of the packed pixel. -/
theorem nativePixelWrite : Obligations.NativePixelWrite := by
  intro len s r g b hp hl hg ha
  refine ⟨_, (exec_nativeWrite hp hl rfl hg).trans (writeTarget_of_ack ha), rfl, ?_, ?_⟩
  · rintro v rfl
    simp only [nextPixel, State.setStage_dst, State.setPix_dst, State.setDst_dst, applyLanes_nativeWrite,
      pixelBytes_native, packNative_trunc]
    constructor <;> intro ho <;> rw [ho]
    · rw [serialize_little_eq_swap_big, serialize_big_eq_halves]
      simp [Memory.read_write]
    · rw [serialize_big_eq_halves]
      simp [Memory.read_write]
  · intro a heven hodd
    simp only [nextPixel, State.setStage_dst, State.setPix_dst, State.setDst_dst, applyLanes_nativeWrite]
    rw [Memory.read_write_other _ _ (Ne.symm hodd), Memory.read_write_other _ _ (Ne.symm heven)]

/-- Settles O22: the first write stores the high half of the packed pixel. -/
theorem swappedFirstByteWrite : Obligations.SwappedFirstByteWrite := by
  intro len s r g b hp hl hg ha
  refine ⟨_, (exec_swappedFirst hp hl rfl hg).trans (writeTarget_of_ack ha), rfl, ?_, ?_⟩
  all_goals
    simp only [State.setStage_dst, State.setDst_dst, applyLanes_swappedFirstWrite s.dst s.nativeByteOrder,
      pixelBytes_swapped, packSwapped_trunc]
  · rintro v rfl
    exact Memory.read_write_same _ _ _
  · exact fun a hne => Memory.read_write_other _ _ (Ne.symm hne)

/-- Settles O23: the second write stores the low half of the packed pixel. -/
theorem swappedSecondByteWrite : Obligations.SwappedSecondByteWrite := by
  intro len s r g b hp hl hg ha
  refine ⟨_, (exec_swappedSecond hp hl rfl hg).trans (writeTarget_of_ack ha), rfl, ?_, ?_⟩
  all_goals
    simp only [nextPixel, State.setStage_dst, State.setPix_dst, State.setDst_dst,
      applyLanes_swappedSecondWrite s.dst s.nativeByteOrder, pixelBytes_swapped, packSwapped_trunc]
  · rintro v rfl
    exact Memory.read_write_same _ _ _
  · exact fun a hne => Memory.read_write_other _ _ (Ne.symm hne)

/-! ### The pixel step as one transition (R75) -/

/-- The lanes of a native write store what the 2-byte primitive does (R42). -/
theorem applyLanes_nativeWrite_eq_memWriteUnit (m : Memory) (o : ByteOrder) (pix : PixIndex) (r g b : Byte) :
    applyLanes m (nativeWrite o pix r g b) = memWriteUnit o m (targetOffset pix) (packNative (trunc r g b)) := by
  obtain ⟨-, -, h, -⟩ := targetWriteShapes o pix r g b m
  exact h

/-- The lane of each swapped write stores what the 1-byte primitive does (R42). -/
theorem applyLanes_swappedFirstWrite_eq_memWriteByte (m : Memory) (pix : PixIndex) (r g b : Byte) :
    applyLanes m (swappedFirstWrite pix r g b) =
      memWriteByte m (targetOffset pix) (serialize (packSwapped (trunc r g b)) .big).1 := by
  obtain ⟨-, -, -, -, -, -, h, -⟩ := targetWriteShapes .big pix r g b m
  exact h

theorem applyLanes_swappedSecondWrite_eq_memWriteByte (m : Memory) (pix : PixIndex) (r g b : Byte) :
    applyLanes m (swappedSecondWrite pix r g b) =
      memWriteByte m (targetOffset pix + 1) (serialize (packSwapped (trunc r g b)) .big).2 := by
  obtain ⟨-, -, -, -, -, -, -, -, -, -, h⟩ := targetWriteShapes .big pix r g b m
  exact h

/-- A pixel step is under way in an environment that answers every request at once and does nothing else. -/
structure ReadyPixel (s : State) : Prop where
  run : s.phase = .run
  left : 4 * s.pix.toNat < s.len.toNat
  script : s.script = []
  steady : s.steady = .ready

theorem ReadyPixel.setStage {s : State} (h : ReadyPixel s) (g : PixelStage) : ReadyPixel (s.setStage g) := { h with }

theorem ReadyPixel.setDst {s : State} (h : ReadyPixel s) (m : Memory) : ReadyPixel (s.setDst m) := { h with }

/-- What the environment drives at every edge: the acknowledge of each request. -/
theorem ReadyPixel.edge_eq {s : State} (h : ReadyPixel s) :
    s.edge = { rst := false, cmdHold := false, rspReady := true, srcAck := s.srcRequest.isSome,
               dstAck := s.dstRequest.isSome, srcWrites := [], dstWrites := [] } := by
  simp only [State.edge, h.script, h.steady, Steady.ready, Bool.and_true]

/-- At such an edge the next transaction of the command in progress is performed, and nothing else happens. -/
theorem ReadyPixel.step_eq {s u : State} (h : ReadyPixel s) (hu : exec s.inProgress s = .next u) : step s = .next u := by
  have hne : s.phase ≠ .idle := by simp [h.run]
  have hmisuse : hostMisuse s = none := by simp [hostMisuse, h.edge_eq]
  have hend : endEdge s.edge u = u := by
    obtain ⟨-, -, hscript, -⟩ := exec_frame hu
    have hnil : u.script = [] := hscript.trans h.script
    rw [endEdge_eq, h.edge_eq]
    simp only [hostWriteSrc, hostWriteDst, List.foldl_nil, hnil, List.tail_nil]
    rw [← hnil]
  have hexec : exec (Instr.ofModeLen s.mode s.len) s = .next u := hu
  rw [step_of_due hmisuse (by rw [h.edge_eq]) (due_inProgress hne), hexec, mapNext, hend]

section ReadyPixel

variable {s : State} (h : ReadyPixel s)
include h

theorem ReadyPixel.pixelLeft : s.pixelLeft = true := (pixelLeft_iff s).2 h.left

/-- A read that is asked for is answered at once. -/
theorem ReadyPixel.step_read {k : Nat} {f : Byte → PixelStage} (hreq : s.srcRequest.isSome = true)
    (hexec : exec s.inProgress s = readSource k f s) :
    step s = .next (s.setStage (f (memRead s.src (sourceOffset s.pix k)))) :=
  h.step_eq (hexec.trans (readSource_of_ack (by rw [h.edge_eq, hreq])))

theorem ReadyPixel.step_readRed (hg : s.stage = .readRed) :
    step s = .next (s.setStage (.readGreen (memRead s.src (sourceOffset s.pix 0)))) :=
  h.step_read (by simp [State.srcRequest, h.run, h.pixelLeft, hg]) (exec_readRed h.run h.left _ hg)

theorem ReadyPixel.step_readGreen {r : Byte} (hg : s.stage = .readGreen r) :
    step s = .next (s.setStage (.readBlue r (memRead s.src (sourceOffset s.pix 1)))) :=
  h.step_read (by simp [State.srcRequest, h.run, h.pixelLeft, hg]) (exec_readGreen h.run h.left _ hg)

theorem ReadyPixel.step_readBlue {r g : Byte} (hg : s.stage = .readBlue r g) :
    step s = .next (s.setStage (.writeFirst r g (memRead s.src (sourceOffset s.pix 2)))) :=
  h.step_read (by simp [State.srcRequest, h.run, h.pixelLeft, hg]) (exec_readBlue h.run h.left _ hg)

/-- A write that is asked for is answered at once. -/
theorem ReadyPixel.step_write {w : DstWrite} {f : State → State} (hreq : s.dstRequest = some w)
    (hexec : exec s.inProgress s = writeTarget w f s) : step s = .next (f (s.setDst (applyLanes s.dst w))) :=
  h.step_eq (hexec.trans (writeTarget_of_ack (by rw [h.edge_eq, hreq]; rfl)))

theorem ReadyPixel.step_nativeWrite (hm : s.mode = .packedNative) {r g b : Byte} (hg : s.stage = .writeFirst r g b) :
    step s = .next (nextPixel (s.setDst (applyLanes s.dst (nativeWrite s.nativeByteOrder s.pix r g b)))) :=
  h.step_write (by simp [State.dstRequest, h.run, h.pixelLeft, hg, hm])
    (exec_nativeWrite h.run h.left ((mode_ofModeLen _ _).trans hm) hg)

theorem ReadyPixel.step_swappedFirst (hm : s.mode = .bigEndianSwapped) {r g b : Byte}
    (hg : s.stage = .writeFirst r g b) :
    step s = .next ((s.setDst (applyLanes s.dst (swappedFirstWrite s.pix r g b))).setStage (.writeSecond r g b)) :=
  h.step_write (by simp [State.dstRequest, h.run, h.pixelLeft, hg, hm])
    (exec_swappedFirst h.run h.left ((mode_ofModeLen _ _).trans hm) hg)

theorem ReadyPixel.step_swappedSecond (hm : s.mode = .bigEndianSwapped) {r g b : Byte}
    (hg : s.stage = .writeSecond r g b) :
    step s = .next (nextPixel (s.setDst (applyLanes s.dst (swappedSecondWrite s.pix r g b)))) :=
  h.step_write (by simp [State.dstRequest, h.run, h.pixelLeft, hg, hm])
    (exec_swappedSecond h.run h.left ((mode_ofModeLen _ _).trans hm) hg)

/-- Three edges take the three bytes of the pixel. -/
theorem ReadyPixel.run_reads (hg : s.stage = .readRed) :
    runEdges 3 s = .next (s.setStage (.writeFirst (memRead s.src (sourceOffset s.pix 0))
      (memRead s.src (sourceOffset s.pix 1)) (memRead s.src (sourceOffset s.pix 2)))) := by
  rw [runEdges_succ (h.step_readRed hg), runEdges_succ ((h.setStage (.readGreen _)).step_readGreen rfl),
    runEdges_succ (((h.setStage (.readGreen _)).setStage (.readBlue _ _)).step_readBlue rfl)]
  rfl

/-- The native pixel of four edges is the atomic one. -/
theorem ReadyPixel.run_native (hm : s.mode = .packedNative) (hg : s.stage = .readRed) :
    runEdges 4 s = .next (pixelStep s) := by
  rw [runEdges_add (k := 1) (h.run_reads hg), runEdges_one,
    ReadyPixel.step_nativeWrite (h.setStage (.writeFirst _ _ _)) hm rfl, applyLanes_nativeWrite_eq_memWriteUnit]
  simp only [pixelStep, hm]
  rfl

/-- The swapped pixel of five edges is the atomic one. -/
theorem ReadyPixel.run_swapped (hm : s.mode = .bigEndianSwapped) (hg : s.stage = .readRed) :
    runEdges 5 s = .next (pixelStep s) := by
  rw [runEdges_add (k := 2) (h.run_reads hg),
    runEdges_succ (ReadyPixel.step_swappedFirst (h.setStage (.writeFirst _ _ _)) hm rfl), runEdges_one,
    ReadyPixel.step_swappedSecond (((h.setStage (.writeFirst _ _ _)).setDst _).setStage (.writeSecond _ _ _)) hm rfl,
    applyLanes_swappedFirstWrite_eq_memWriteByte, applyLanes_swappedSecondWrite_eq_memWriteByte]
  simp only [pixelStep, hm]
  rfl

end ReadyPixel

/-- Settles O28: in an environment that is ready every edge performs the next transaction of the pixel. -/
theorem transactionsMakeThePixelStep : Obligations.TransactionsMakeThePixelStep := by
  intro s hp hl hg hscript hsteady
  have h : ReadyPixel s := ⟨hp, hl, hscript, hsteady⟩
  exact ⟨fun hm => h.run_native hm hg, fun hm => h.run_swapped hm hg⟩

/-! ### What a step does not depend on (R39, R69, R74)

An update of fields that a command's step neither reads nor writes changes the same fields of what the step answers. The
argument is made once, for any such update. -/

/-- The update `f` touches nothing that a step of a command in progress reads, and comes before or after each of the updates
such a step is made of alike. `NATIVE_BYTE_ORDER` is left out, which a native write alone reads. -/
structure Unread (f : State → State) : Prop where
  phase : ∀ s, (f s).phase = s.phase
  stage : ∀ s, (f s).stage = s.stage
  pix : ∀ s, (f s).pix = s.pix
  src : ∀ s, (f s).src = s.src
  dst : ∀ s, (f s).dst = s.dst
  pixelLeft : ∀ s, (f s).pixelLeft = s.pixelLeft
  passOver : ∀ s, (f s).passOver = s.passOver
  rspWord : ∀ s, (f s).rspWord = s.rspWord
  edge : ∀ s, (f s).edge = s.edge
  setPhase : ∀ s p, (f s).setPhase p = f (s.setPhase p)
  setStage : ∀ s g, (f s).setStage g = f (s.setStage g)
  setPix : ∀ s i, (f s).setPix i = f (s.setPix i)
  setDst : ∀ s m, (f s).setDst m = f (s.setDst m)
  pushResponse : ∀ s r, (f s).pushResponse r = f (s.pushResponse r)

/-- The words the host offers are read in `IDLE` only. -/
theorem unread_withCommands (cs : List CmdWord) : Unread (fun s => s.withCommands cs) := by
  constructor <;> intros <;> rfl

/-- Whether there is a target request does not depend on the byte order of its data. -/
theorem withOrder_dstRequest_isSome (s : State) (o : ByteOrder) :
    (s.withOrder o).dstRequest.isSome = s.dstRequest.isSome := by
  have hstage : (s.withOrder o).stage = s.stage := rfl
  have hmode : (s.withOrder o).mode = s.mode := rfl
  by_cases hrun : s.phase = .run ∧ s.pixelLeft = true
  · have hrun' : (s.withOrder o).phase = .run ∧ (s.withOrder o).pixelLeft = true := hrun
    rw [State.dstRequest, State.dstRequest, if_pos hrun, if_pos hrun', hstage, hmode]
    cases s.stage <;> cases s.mode <;> rfl
  · have hrun' : ¬ ((s.withOrder o).phase = .run ∧ (s.withOrder o).pixelLeft = true) := hrun
    rw [State.dstRequest, State.dstRequest, if_neg hrun, if_neg hrun']

theorem withOrder_edge (s : State) (o : ByteOrder) : (s.withOrder o).edge = s.edge := by
  have hscript : (s.withOrder o).script = s.script := rfl
  have hsteady : (s.withOrder o).steady = s.steady := rfl
  have hsrc : (s.withOrder o).srcRequest = s.srcRequest := rfl
  simp only [State.edge, hscript, hsteady, hsrc, withOrder_dstRequest_isSome]

/-- The byte order is read by a native write only. -/
theorem unread_withOrder (o : ByteOrder) : Unread (fun s => s.withOrder o) where
  phase _ := rfl
  stage _ := rfl
  pix _ := rfl
  src _ := rfl
  dst _ := rfl
  pixelLeft _ := rfl
  passOver _ := rfl
  rspWord _ := rfl
  edge s := withOrder_edge s o
  setPhase _ _ := rfl
  setStage _ _ := rfl
  setPix _ _ := rfl
  setDst _ _ := rfl
  pushResponse _ _ := rfl

section Unread

variable {f : State → State} (hf : Unread f) (s : State)
include hf

theorem Unread.readSource (k : Nat) (next : Byte → PixelStage) :
    readSource k next (f s) = mapNext f (readSource k next s) := by
  rw [Machine.readSource, Machine.readSource, hf.edge, hf.src, hf.pix, hf.setStage]
  split <;> rfl

theorem Unread.writeTarget (w : DstWrite) {after : State → State} (hafter : ∀ t, after (f t) = f (after t)) :
    writeTarget w after (f s) = mapNext f (writeTarget w after s) := by
  rw [Machine.writeTarget, Machine.writeTarget, hf.edge, hf.dst, hf.setDst, hafter]
  split <;> rfl

theorem Unread.nextPixel : nextPixel (f s) = f (nextPixel s) := by
  rw [Machine.nextPixel, hf.pix, hf.setPix, hf.setStage, Machine.nextPixel]

theorem Unread.respond : respond (f s) = mapNext f (respond s) := by
  rw [Machine.respond, Machine.respond, hf.edge, hf.rspWord, hf.pushResponse, hf.setPhase]
  split <;> rfl

theorem Unread.nativePixel (horder : (f s).nativeByteOrder = s.nativeByteOrder) :
    nativePixel (f s) = mapNext f (nativePixel s) := by
  rw [Machine.nativePixel, Machine.nativePixel, hf.stage, hf.pix, horder]
  cases s.stage with
  | writeFirst r g b => exact hf.writeTarget s _ hf.nextPixel
  | writeSecond r g b => rfl
  | _ => exact hf.readSource s _ _

theorem Unread.swappedPixel : swappedPixel (f s) = mapNext f (swappedPixel s) := by
  rw [Machine.swappedPixel, Machine.swappedPixel, hf.stage, hf.pix]
  cases s.stage with
  | writeFirst r g b => exact hf.writeTarget s _ (fun t => hf.setStage t _)
  | writeSecond r g b => exact hf.writeTarget s _ hf.nextPixel
  | _ => exact hf.readSource s _ _

/-- The phases around a pixel step; in `IDLE` the accept is asked for by itself. -/
theorem Unread.commandStep {m : Mode} {len : Len} {pixel : State → Host.Outcome State Fault Refusal}
    (hidle : s.phase = .idle → accept m len (f s) = f (accept m len s)) (hpixel : pixel (f s) = mapNext f (pixel s)) :
    commandStep m len pixel (f s) = mapNext f (commandStep m len pixel s) := by
  rw [Machine.commandStep, Machine.commandStep, hf.phase, hf.pixelLeft, hf.passOver, hf.setPhase]
  cases hp : s.phase with
  | idle => exact congrArg Host.Outcome.next (hidle hp)
  | run =>
    cases s.pixelLeft with
    | true => exact hpixel
    | false => cases s.passOver <;> rfl
  | resp => exact hf.respond s

end Unread

theorem accept_withOrder (m : Mode) (len : Len) (s : State) (o : ByteOrder) :
    accept m len (s.withOrder o) = (accept m len s).withOrder o := by
  cases hv : lengthValid len
  · rw [accept_of_invalid m hv, accept_of_invalid m hv]; rfl
  · rw [accept_of_valid m hv, accept_of_valid m hv]; rfl

/-- Settles O44: the swapped pixel step and the phases around it do not read the byte order. -/
theorem swappedIgnoresNativeOrder : Obligations.SwappedIgnoresNativeOrder := fun len s o =>
  (unread_withOrder o).commandStep s (fun _ => accept_withOrder _ len s o) ((unread_withOrder o).swappedPixel s)

/-- A command in progress does not see the words the host offers (R39). -/
theorem exec_withCommands (i : Instr) {s : State} (cs : List CmdWord) (hp : s.phase ≠ .idle) :
    exec i (s.withCommands cs) = mapNext (fun t => t.withCommands cs) (exec i s) := by
  have hcs := unread_withCommands cs
  cases i with
  | convNative len => exact hcs.commandStep s (fun hidle => absurd hidle hp) (hcs.nativePixel s rfl)
  | convSwapped len => exact hcs.commandStep s (fun hidle => absurd hidle hp) (hcs.swappedPixel s)

/-- Settles O30: outside `IDLE` the due command is that of `MODE` and `LEN`, and its step does not see the offered words. -/
theorem stepRunsCommandInProgress : Obligations.StepRunsCommandInProgress := by
  intro s cs hp hr hm
  have hstep : ∀ t : State, t.phase ≠ .idle → t.edge.rst = false → hostMisuse t = none →
      step t = mapNext (endEdge t.edge) (exec (.ofModeLen t.mode t.len) t) :=
    fun t htp htr htm => step_of_due htm htr (due_inProgress htp)
  refine ⟨hstep s hp hr hm, ?_⟩
  calc step (s.withCommands cs)
      = mapNext (endEdge s.edge) (exec (.ofModeLen s.mode s.len) (s.withCommands cs)) := hstep (s.withCommands cs) hp hr hm
    _ = mapNext (fun t => t.withCommands cs) (mapNext (endEdge s.edge) (exec (.ofModeLen s.mode s.len) s)) := by
        rw [exec_withCommands _ cs hp, mapNext_mapNext, mapNext_mapNext]
        rfl
    _ = mapNext (fun t => t.withCommands cs) (step s) := by rw [hstep s hp hr hm]

/-! ### The reference function (R78, R80, R82) -/

/-- A list that is not a pixel and the rest holds no whole pixel. -/
theorem length_lt_four_of_no_pixel :
    ∀ {src : List Byte}, (∀ r g b x rest, src = r :: g :: b :: x :: rest → False) → src.length < 4
  | [], _ | [_], _ | [_, _], _ | [_, _, _], _ => by simp
  | r :: g :: b :: x :: rest, h => (h r g b x rest rfl).elim

/-- Half a byte of target for each byte of the whole pixels. -/
theorem length_convPixels (m : Mode) (o : ByteOrder) (src : List Byte) :
    (convPixels m o src).length = 2 * (src.length / 4) := by
  induction src using convPixels.induct with
  | case1 r g b x rest ih =>
    simp only [convPixels, List.length_cons, ih]
    omega
  | case2 src hshort =>
    rw [convPixels.eq_2 _ _ _ hshort, Nat.div_eq_of_lt (length_lt_four_of_no_pixel hshort)]
    rfl

/-- The two target bytes of pixel `i`, from its first three source bytes. -/
theorem getElem?_convPixels (m : Mode) (o : ByteOrder) {src : List Byte} {i : Nat} (hi : i < src.length / 4)
    {r g b : Byte} (hr : src[4 * i]? = some r) (hg : src[4 * i + 1]? = some g) (hb : src[4 * i + 2]? = some b) :
    (convPixels m o src)[2 * i]? = some (pixelBytes m o r g b).1 ∧
      (convPixels m o src)[2 * i + 1]? = some (pixelBytes m o r g b).2 := by
  induction src using convPixels.induct generalizing i with
  | case1 r' g' b' x rest ih =>
    rw [convPixels]
    cases i with
    | zero =>
      obtain ⟨rfl, rfl, rfl⟩ : r' = r ∧ g' = g ∧ b' = b := by simpa using And.intro hr (And.intro hg hb)
      exact ⟨rfl, rfl⟩
    | succ i =>
      have hi' : i < rest.length / 4 := by simp only [List.length_cons] at hi; omega
      simpa [Nat.mul_succ] using ih hi' (by simpa [Nat.mul_succ] using hr) (by simpa [Nat.mul_succ] using hg)
        (by simpa [Nat.mul_succ] using hb)
  | case2 src hshort =>
    have := length_lt_four_of_no_pixel hshort
    omega

/-- A cut at a pixel is a cut between two pixels' bytes. -/
theorem convPixels_append (m : Mode) (o : ByteOrder) {a : List Byte} (ha : a.length % 4 = 0) (b : List Byte) :
    convPixels m o (a ++ b) = convPixels m o a ++ convPixels m o b := by
  induction a using convPixels.induct with
  | case1 r g b' x rest ih =>
    have hrest : rest.length % 4 = 0 := by simp only [List.length_cons] at ha; omega
    simp only [List.cons_append, convPixels, ih hrest]
  | case2 a hshort =>
    have := length_lt_four_of_no_pixel hshort
    obtain rfl : a = [] := List.length_eq_zero_iff.1 (by omega)
    rfl

theorem conv_of_valid (m : Mode) (o : ByteOrder) {src : List Byte} (h : src.length % 4 = 0) :
    conv m o src = .ok (convPixels m o src) := if_pos h

theorem conv_of_invalid (m : Mode) (o : ByteOrder) {src : List Byte} (h : src.length % 4 ≠ 0) :
    conv m o src = .error .invalidInputLength := if_neg h

/-- The reference function succeeds on whole pixels only, and then gives their bytes. -/
theorem conv_eq_ok_iff {m : Mode} {o : ByteOrder} {src dst : List Byte} :
    conv m o src = .ok dst ↔ src.length % 4 = 0 ∧ convPixels m o src = dst := by
  by_cases h : src.length % 4 = 0
  · simp [conv_of_valid m o h, h]
  · simp [conv_of_invalid m o h, h]

/-- It fails on every other length, in one way. -/
theorem conv_eq_error_iff {m : Mode} {o : ByteOrder} {src : List Byte} {e : ErrorKind} :
    conv m o src = .error e ↔ src.length % 4 ≠ 0 ∧ e = .invalidInputLength := by
  by_cases h : src.length % 4 = 0
  · simp [conv_of_valid m o h, h]
  · simp [conv_of_invalid m o h, h, eq_comm]

/-- Settles O45: whole pixels give two bytes each, those of the mode's packer in the mode's order. -/
theorem referenceFunction : Obligations.ReferenceFunction := by
  intro m o src
  refine ⟨conv_of_invalid m o, fun hlen => ⟨_, conv_of_valid m o hlen, ?_, fun i hi r g b hr hg hb => ?_⟩⟩
  · rw [length_convPixels]
    omega
  · have hbytes := getElem?_convPixels m o hi hr hg hb
    exact ⟨by rintro rfl; exact hbytes, by rintro rfl; exact hbytes⟩

/-- Settles O46: both parts are whole pixels, and so is their concatenation. -/
theorem conversionIsLocal : Obligations.ConversionIsLocal := by
  intro m o a b da db ha hb
  obtain ⟨halen, rfl⟩ := conv_eq_ok_iff.1 ha
  obtain ⟨hblen, rfl⟩ := conv_eq_ok_iff.1 hb
  refine conv_eq_ok_iff.2 ⟨?_, convPixels_append m o halen b⟩
  rw [List.length_append]
  omega

/-! ### The pixels below `PIX` are converted (R75, R79) -/

/-- With no transaction in flight the claim is that of the pixels below `PIX` alone. -/
theorem convInv_of_readRed {s : State} (hg : s.stage = .readRed)
    (h : s.phase ≠ .idle → ∀ i, i < s.pix.toNat → s.pixelWritten i) : ConvInv s where
  held := heldBytesRight_of_readRed hg
  written := h
  half_written r g b hw := by rw [hg] at hw; cases hw

/-- Nothing is claimed of an idle block with no transaction in flight. -/
theorem convInv_of_idle {s : State} (hp : s.phase = .idle) (hg : s.stage = .readRed) : ConvInv s :=
  convInv_of_readRed hg fun hne => absurd hp hne

/-- Nothing is claimed before the first pixel step. -/
theorem convInv_of_pix_zero {s : State} (hpix : s.pix = 0) (hg : s.stage = .readRed) : ConvInv s :=
  convInv_of_readRed hg fun _ i hi => by simp [hpix] at hi

/-- Outside a pixel step no transaction is in flight (R24). -/
theorem RegInv.stage_of_not_run {s : State} (h : RegInv s) (hp : s.phase ≠ .run) : s.stage = .readRed := by
  by_contra hne
  obtain ⟨hrun, -⟩ := h.stage_in_run hne
  exact hp hrun

/-- When a write is due, the bytes to write are those the reference gives for the pixel in work. -/
theorem pixelBytes_of_held {s : State} {m : Mode} (hm : s.mode = m) {r g b : Byte}
    (hg : s.stage = .writeFirst r g b ∨ s.stage = .writeSecond r g b) (h : s.heldBytesRight) :
    pixelBytes m s.nativeByteOrder r g b = s.expectedBytes s.pix.toNat := by
  unfold State.heldBytesRight at h
  obtain ⟨rfl, rfl, rfl⟩ : r = s.sourceByte 0 ∧ g = s.sourceByte 1 ∧ b = s.sourceByte 2 := by
    obtain hg | hg := hg <;> rw [hg] at h <;> exact h
  rw [← hm]
  rfl

/-- A write at or behind the pixel in work leaves the pixels before it as they are. -/
theorem pixelWritten_write {s : State} {i a : Nat} (h : s.pixelWritten i) (hi : i < s.pix.toNat)
    (ha : 2 * s.pix.toNat ≤ a) (v : Byte) : (s.setDst (Memory.write s.dst a v)).pixelWritten i := by
  unfold State.pixelWritten at h ⊢
  rw [State.setDst_dst, Memory.read_write_other _ _ (by omega), Memory.read_write_other _ _ (by omega)]
  exact h

/-- The end of a pixel step adds the pixel in work to those below `PIX`. -/
theorem convInv_nextPixel {s : State} (hlen : s.len.toNat % 4 = 0) (hl : 4 * s.pix.toNat < s.len.toNat)
    (hbelow : ∀ i, i < s.pix.toNat → s.pixelWritten i) (hpix : s.pixelWritten s.pix.toNat) : ConvInv (nextPixel s) := by
  have hsucc : (nextPixel s).pix.toNat = s.pix.toNat + 1 := pix_succ_toNat hlen hl
  refine convInv_of_readRed rfl fun _ i hi => ?_
  obtain hi | rfl : i < s.pix.toNat ∨ i = s.pix.toNat := by omega
  · exact hbelow i hi
  · exact hpix

/-- Every transaction of a pixel step keeps the invariant: a read takes the right byte, a write stores the right one behind
those already written. -/
theorem Transaction.convInv {s u : State} {ev : PortEvent} (h : Transaction s ev u) (hp : s.phase = .run)
    (hlen : s.len.toNat % 4 = 0) (hl : 4 * s.pix.toNat < s.len.toNat) (hc : ConvInv s) : ConvInv u := by
  have hheld : u.heldBytesRight := by
    obtain ⟨-, -, -, hsrc, -⟩ := h.frame
    have hu := h.heldBytesRight (src := s.src) hlen hl (fun _ _ => rfl) hc.held
    rwa [← hsrc] at hu
  have hwritten : ∀ i, i < s.pix.toNat → s.pixelWritten i := hc.written (by simp [hp])
  cases h with
  | readRed => exact ⟨hheld, fun _ => hwritten, fun _ _ _ hg => by cases hg⟩
  | readGreen => exact ⟨hheld, fun _ => hwritten, fun _ _ _ hg => by cases hg⟩
  | readBlue => exact ⟨hheld, fun _ => hwritten, fun _ _ _ hg => by cases hg⟩
  | nativeWrite r g b hm hg =>
    rw [applyLanes_nativeWrite, pixelBytes_of_held hm (.inl hg) hc.held]
    refine convInv_nextPixel hlen hl (fun i hi => ?_) ?_
    · exact pixelWritten_write (pixelWritten_write (hwritten i hi) hi le_rfl _) hi (Nat.le_succ _) _
    · exact Prod.ext ((Memory.read_write_other _ _ (Nat.succ_ne_self _)).trans (Memory.read_write_same _ _ _))
        (Memory.read_write_same _ _ _)
  | swappedFirst r g b hm hg =>
    rw [applyLanes_swappedFirstWrite _ s.nativeByteOrder, pixelBytes_of_held hm (.inl hg) hc.held] at hheld ⊢
    exact ⟨hheld, fun _ i hi => pixelWritten_write (hwritten i hi) hi le_rfl _,
      fun _ _ _ _ => Memory.read_write_same _ _ _⟩
  | swappedSecond r g b hm hg =>
    rw [applyLanes_swappedSecondWrite _ s.nativeByteOrder, pixelBytes_of_held hm (.inr hg) hc.held]
    refine convInv_nextPixel hlen hl (fun i hi => ?_) ?_
    · exact pixelWritten_write (hwritten i hi) hi (Nat.le_succ _) _
    · exact Prod.ext ((Memory.read_write_other _ _ (Nat.succ_ne_self _)).trans (hc.half_written r g b hg))
        (Memory.read_write_same _ _ _)

/-- Every move of a command keeps the invariant; what an idle block holds is not asked for. -/
theorem CommandMove.convInv {i : Instr} {s u : State} {ev : Option PortEvent} (h : CommandMove i s ev u)
    (hreg : s.phase ≠ .idle → RegInv s) (hc : s.phase ≠ .idle → ConvInv s) (hu : u.phase ≠ .idle) : ConvInv u := by
  cases h with
  | wait => exact hc hu
  | accept => exact convInv_of_pix_zero (accept_pix ..) (accept_stage ..)
  | transaction hp hl h =>
    have hne : s.phase ≠ .idle := by simp [hp]
    exact h.convInv hp ((hreg hne).len_valid_of_run hp) hl (hc hne)
  | finish hp =>
    have hne : s.phase ≠ .idle := by simp [hp]
    exact ⟨(hc hne).held, fun _ => (hc hne).written hne, (hc hne).half_written⟩
  | respond => exact absurd rfl hu

@[simp] theorem endEdge_pix (e : Edge) (s : State) : (endEdge e s).pix = s.pix := rfl

@[simp] theorem endEdge_stage (e : Edge) (s : State) : (endEdge e s).stage = s.stage := rfl

section HostWrites

variable {s : State} {e : Edge}

/-- The command's part of `SRC` stays as the command was given it (R109). -/
theorem endEdge_read_src (hsrc : ∀ c ∈ e.srcWrites, s.len.toNat ≤ c.1.toNat) {a : Nat} (ha : a < s.len.toNat) :
    Memory.read (endEdge e s).src a = Memory.read s.src a :=
  hostWriteSrc_read s.src _ a fun c hc hca => by have := hsrc c hc; omega

/-- The command's part of `DST` stays as the command wrote it (R110). -/
theorem endEdge_read_dst (hdst : ∀ c ∈ e.dstWrites, s.len.toNat / 2 ≤ c.1.toNat) {a : Nat} (ha : a < s.len.toNat / 2) :
    Memory.read (endEdge e s).dst a = Memory.read s.dst a :=
  hostWriteDst_read s.dst _ a fun c hc hca => by have := hdst c hc; omega

/-- The reference sees the three bytes it saw of a pixel below `LEN`. -/
theorem endEdge_expectedBytes (hsrc : ∀ c ∈ e.srcWrites, s.len.toNat ≤ c.1.toNat) {i : Nat}
    (hi : 4 * i + 2 < s.len.toNat) : (endEdge e s).expectedBytes i = s.expectedBytes i := by
  unfold State.expectedBytes
  rw [endEdge_read_src hsrc (by omega), endEdge_read_src hsrc (by omega), endEdge_read_src hsrc hi]
  rfl

/-- The bytes held stay right. -/
theorem endEdge_heldBytesRight (hreg : RegInv s) (hsrc : ∀ c ∈ e.srcWrites, s.len.toNat ≤ c.1.toNat)
    (hheld : s.heldBytesRight) : (endEdge e s).heldBytesRight := by
  by_cases hg : s.stage = .readRed
  · exact heldBytesRight_of_readRed hg
  · obtain ⟨hp, hl⟩ := hreg.stage_in_run hg
    have hlen := hreg.len_valid_of_run hp
    have hbyte : ∀ k, k < 3 → (endEdge e s).sourceByte k = s.sourceByte k := fun k hk =>
      endEdge_read_src hsrc (a := 4 * s.pix.toNat + k) (by omega)
    unfold State.heldBytesRight at hheld ⊢
    rw [endEdge_stage, hbyte 0 (by decide), hbyte 1 (by decide), hbyte 2 (by decide)]
    exact hheld

/-- The host's writes keep the invariant when they spare the buffers of the command (R109, R110). -/
theorem ConvInv.endEdge (h : ConvInv s) (hreg : RegInv s) (hsrc : ∀ c ∈ e.srcWrites, s.len.toNat ≤ c.1.toNat)
    (hdst : ∀ c ∈ e.dstWrites, s.len.toNat / 2 ≤ c.1.toNat) : ConvInv (endEdge e s) where
  held := endEdge_heldBytesRight hreg hsrc h.held
  written hp i hi := by
    have hi' : i < s.pix.toNat := hi
    have hle := hreg.pix_le
    unfold State.pixelWritten
    rw [endEdge_read_dst hdst (by omega), endEdge_read_dst hdst (by omega), endEdge_expectedBytes hsrc (by omega)]
    exact h.written hp i hi'
  half_written r g b hg := by
    obtain ⟨hp, hl⟩ := hreg.stage_in_run (by rw [← endEdge_stage e s, hg]; simp)
    have hlen := hreg.len_valid_of_run hp
    rw [endEdge_pix, endEdge_read_dst hdst (by omega), endEdge_expectedBytes hsrc (by omega)]
    exact h.half_written r g b hg

end HostWrites

/-- A command in progress keeps its length (R14). -/
theorem CommandMove.len_eq {i : Instr} {s u : State} {ev : Option PortEvent} (h : CommandMove i s ev u)
    (hp : s.phase ≠ .idle) : u.len = s.len := by
  cases h with
  | accept hidle => exact absurd hidle hp
  | transaction _ _ h =>
    obtain ⟨-, -, hlen, -⟩ := h.frame
    exact hlen
  | _ => rfl

/-- Settles O38: a reset edge and a waiting edge end idle, an accept has written nothing yet, and a command in progress makes
a move that keeps the invariant before the host writes elsewhere. -/
theorem stepKeepsConvInv : Obligations.StepKeepsConvInv := by
  intro s t hreg hc hs
  obtain ⟨hm, ⟨-, rfl⟩ | ⟨-, hd, rfl⟩ | ⟨hr, i, u, hd, hu, rfl⟩⟩ := step_next hs
  · exact convInv_of_idle rfl rfl
  · have hp := due_none_idle hd
    exact convInv_of_idle hp (hreg.stage_of_not_run (by simp [hp]))
  · by_cases hp : s.phase = .idle
    · obtain rfl : accept i.mode i.len s = u := by simpa [exec_of_idle i hp] using hu
      exact convInv_of_pix_zero (by rw [endEdge_pix, accept_pix]) (by rw [endEdge_stage, accept_stage])
    · have hmode := due_mode hd hp
      obtain ⟨u', hu', hmove⟩ := exec_move hreg hmode hr hp
      obtain rfl : u' = u := by simpa [hu'] using hu
      have hregu : RegInv u' := (exec_next hu).regInv hreg (fun _ => hmode)
      by_cases hup : u'.phase = .idle
      · exact convInv_of_idle hup (hregu.stage_of_not_run (by simp [hup]))
      · obtain ⟨hsrc, hdst⟩ := hostMisuse_none hm hp hr
        have hlen : u'.len = s.len := hmove.len_eq hp
        rw [← hlen] at hsrc hdst
        exact (hmove.convInv (fun _ => hreg) (fun _ => hc) hup).endEdge hregu hsrc hdst

/-! ### The converter steps of a command (R71, R87) -/

/-- The converter steps completed of the command in progress: none before the accept. -/
def State.stepsDone (s : State) : List ConvStep :=
  match s.phase with
  | .idle => []
  | .run => ConvStep.accept :: List.replicate s.pix.toNat .pixel
  | .resp => if s.len.toNat % 4 = 0 then ConvStep.accept :: List.replicate (s.len.toNat / 4) .pixel ++ [.finish] else [.accept]

/-- The converter steps of a whole command: a pass over every pixel for a valid length, none for an invalid one. -/
def commandSteps (i : Instr) : List ConvStep :=
  if i.len.toNat % 4 = 0 then ConvStep.accept :: List.replicate (i.len.toNat / 4) .pixel ++ [.finish, .respond]
  else [.accept, .respond]

theorem stepsDone_of_idle {s : State} (hp : s.phase = .idle) : s.stepsDone = [] := by simp [State.stepsDone, hp]

theorem stepsDone_of_run {s : State} (hp : s.phase = .run) :
    s.stepsDone = ConvStep.accept :: List.replicate s.pix.toNat .pixel := by simp [State.stepsDone, hp]

theorem stepsDone_of_resp {s : State} (hp : s.phase = .resp) :
    s.stepsDone = if s.len.toNat % 4 = 0 then ConvStep.accept :: List.replicate (s.len.toNat / 4) .pixel ++ [.finish]
      else [.accept] := by simp [State.stepsDone, hp]

theorem endEdge_stepsDone (e : Edge) (s : State) : (endEdge e s).stepsDone = s.stepsDone := rfl

/-- The accept completes itself only. -/
theorem stepsDone_accept (m : Mode) (len : Len) (s : State) : (accept m len s).stepsDone = [.accept] := by
  have hp := accept_phase m len s
  by_cases hlen : len.toNat % 4 = 0
  · rw [if_pos hlen] at hp
    rw [stepsDone_of_run hp, accept_pix]
    rfl
  · rw [if_neg hlen] at hp
    rw [stepsDone_of_resp hp, accept_len, if_neg hlen]

/-- The end of a pixel step completes one more pixel. -/
theorem stepsDone_nextPixel {s : State} (hp : s.phase = .run) (hlen : s.len.toNat % 4 = 0)
    (hl : 4 * s.pix.toNat < s.len.toNat) : (nextPixel s).stepsDone = s.stepsDone ++ [.pixel] := by
  have hpix : (nextPixel s).pix.toNat = s.pix.toNat + 1 := pix_succ_toNat hlen hl
  rw [stepsDone_of_run hp, stepsDone_of_run (s := nextPixel s) hp, hpix, List.replicate_succ']
  rfl

theorem stepsDone_finish {s : State} (hp : s.phase = .run) (hlen : s.len.toNat % 4 = 0)
    (hl : 4 * s.pix.toNat = s.len.toNat) : (s.setPhase .resp).stepsDone = s.stepsDone ++ [.finish] := by
  have hpix : s.len.toNat / 4 = s.pix.toNat := by omega
  rw [stepsDone_of_run hp, stepsDone_of_resp (s := s.setPhase .resp) rfl, State.setPhase_len, if_pos hlen, hpix]

/-- A command that responds has made all its steps but the respond. -/
theorem stepsDone_respond {s : State} {i : Instr} (hp : s.phase = .resp) (hlen : s.len = i.len) :
    s.stepsDone ++ [.respond] = commandSteps i := by
  rw [stepsDone_of_resp hp, hlen, commandSteps]
  split
  · rw [List.append_assoc]
    rfl
  · rfl

/-! What is completed at an edge without reset, by phase (R71). -/

section Completes

variable {s : State} (hr : s.edge.rst = false)
include hr

theorem completes_of_idle (hp : s.phase = .idle) : s.completes = if s.cmdValid then some .accept else none := by
  simp [State.completes, hr, hp]

theorem completes_of_pixelLeft (hp : s.phase = .run) (hl : 4 * s.pix.toNat < s.len.toNat) :
    s.completes = if s.lastTransaction && s.edge.dstAck then some .pixel else none := by
  simp [State.completes, hr, hp, (pixelLeft_iff s).2 hl]

theorem completes_of_passOver (hp : s.phase = .run) (hl : 4 * s.pix.toNat = s.len.toNat) :
    s.completes = some .finish := by
  simp [State.completes, hr, hp, State.pixelLeft, State.passOver, hl]

theorem completes_of_resp (hp : s.phase = .resp) :
    s.completes = if s.edge.rspReady then some .respond else none := by
  simp [State.completes, hr, hp]

end Completes

/-- The last transaction of a pixel is a write. -/
theorem dstRequest_of_lastTransaction {s : State} (hp : s.phase = .run) (hl : 4 * s.pix.toNat < s.len.toNat)
    (h : s.lastTransaction = true) : s.dstRequest ≠ none := by
  have hleft := (pixelLeft_iff s).2 hl
  unfold State.lastTransaction at h
  split at h
  · next hg hm => simp [State.dstRequest, hp, hleft, hg, hm]
  · next hg hm => simp [State.dstRequest, hp, hleft, hg, hm]
  · cases h

/-- A write seen on the port is acknowledged. -/
theorem dstAck_of_write {s : State} {w : DstWrite} (h : s.portEvent = some (.write w)) : s.edge.dstAck = true := by
  unfold State.portEvent at h
  split at h
  · cases h
  · split at h
    · split at h <;> cases h
    · split at h
      · assumption
      · cases h
    · cases h

/-- `IDLE` is left at a handover only (R12, R53). -/
theorem cmdValid_of_step {s t : State} (hr : s.edge.rst = false) (hp : s.phase = .idle) (hs : step s = .next t)
    (ht : t.phase ≠ .idle) : s.cmdValid = true := by
  obtain ⟨hrst, -⟩ | ⟨-, ⟨-, hv, -⟩ | ⟨-, hv, -⟩ | ⟨hrun, -⟩ | ⟨hresp, -⟩⟩ := phaseTransitions s t hs (by rwa [hp])
  · simp [hr] at hrst
  · exact hv
  · exact hv
  · simp [hp] at hrun
  · simp [hp] at hresp

/-- `RESP` is left when the host takes the response only (R12, R77). -/
theorem rspReady_of_step {s t : State} (hr : s.edge.rst = false) (hp : s.phase = .resp) (hs : step s = .next t)
    (ht : t.phase ≠ .resp) : s.edge.rspReady = true := by
  obtain ⟨hrst, -⟩ | ⟨-, ⟨hidle, -⟩ | ⟨hidle, -⟩ | ⟨hrun, -⟩ | ⟨-, -, hrdy⟩⟩ := phaseTransitions s t hs (by rwa [hp])
  · simp [hr] at hrst
  · simp [hp] at hidle
  · simp [hp] at hidle
  · simp [hp] at hrun
  · exact hrdy

/-- A block that is not supplied completes nothing. -/
theorem completes_of_unsupplied {s : State} (hr : s.edge.rst = false) (hreg : s.phase ≠ .idle → RegInv s)
    (h : ¬ s.suppliedBy s.edge) : s.completes = none := by
  cases hp : s.phase with
  | idle =>
    have hhold : s.edge.cmdHold = true := by
      by_contra hne
      exact h (suppliedBy_of_idle hp (by simpa using hne))
    simp [completes_of_idle hr hp, State.cmdValid, hhold]
  | run =>
    obtain hl | hl := Nat.lt_or_eq_of_le (hreg (by simp [hp])).pix_le
    · rw [completes_of_pixelLeft hr hp hl, if_neg]
      intro hlast
      obtain ⟨hlast, hack⟩ := Bool.and_eq_true_iff.1 hlast
      have hdst := dstRequest_of_lastTransaction hp hl hlast
      have hsrc : s.srcRequest = none := by
        by_contra hne
        obtain ⟨a, ha⟩ := Option.ne_none_iff_exists'.1 hne
        exact hdst (dstRequest_none_of_srcRequest ha)
      exact h ⟨fun hne => absurd hsrc hne, fun _ => hack, by simp [hp], by simp [hp]⟩
    · have hleft : s.pixelLeft = false := decide_eq_false (by omega)
      exact absurd ⟨by simp [State.srcRequest, hleft], by simp [State.dstRequest, hleft], by simp [hp], by simp [hp]⟩ h
  | resp =>
    have hrdy : s.edge.rspReady = false := by
      by_contra hne
      exact h (suppliedBy_of_resp hp (by simpa using hne))
    simp [completes_of_resp hr hp, hrdy]

/-- A transaction completes a pixel exactly when it is the pixel's last. -/
theorem Transaction.stepsDone {s u : State} {ev : PortEvent} (h : Transaction s ev u) (hr : s.edge.rst = false)
    (hev : s.portEvent = some ev) (hp : s.phase = .run) (hlen : s.len.toNat % 4 = 0)
    (hl : 4 * s.pix.toNat < s.len.toNat) : u.stepsDone = s.stepsDone ++ s.completes.toList := by
  have hstay : s.lastTransaction = false → ∀ t : State, t.stepsDone = s.stepsDone →
      t.stepsDone = s.stepsDone ++ s.completes.toList := fun hlast t ht => by
    simp [completes_of_pixelLeft hr hp hl, hlast, ht]
  have hdone : s.lastTransaction = true → s.edge.dstAck = true → s.completes.toList = [.pixel] := fun hlast hack => by
    simp [completes_of_pixelLeft hr hp hl, hlast, hack]
  cases h with
  | readRed hg => exact hstay (by simp [State.lastTransaction, hg]) _ rfl
  | readGreen r hg => exact hstay (by simp [State.lastTransaction, hg]) _ rfl
  | readBlue r g hg => exact hstay (by simp [State.lastTransaction, hg]) _ rfl
  | nativeWrite r g b hm hg =>
    rw [hdone (by simp [State.lastTransaction, hg, hm]) (dstAck_of_write hev)]
    exact stepsDone_nextPixel (s := s.setDst _) hp hlen hl
  | swappedFirst r g b hm hg => exact hstay (by simp [State.lastTransaction, hg, hm]) _ rfl
  | swappedSecond r g b hm hg =>
    rw [hdone (by simp [State.lastTransaction, hg, hm]) (dstAck_of_write hev)]
    exact stepsDone_nextPixel (s := s.setDst _) hp hlen hl

/-- A move before the response adds to the steps done what is completed at its edge. That an accept is a handover is seen
from the step it is (R53). -/
theorem CommandMove.stepsDone {i : Instr} {s u : State} (h : CommandMove i s s.portEvent u) (hs : Serves i s)
    (hr : s.edge.rst = false) (hstep : step s = .next (endEdge s.edge u)) (hrsp : u.responses = s.responses) :
    u.stepsDone = s.stepsDone ++ s.completes.toList := by
  generalize hev : s.portEvent = ev at h
  cases h with
  | wait h => simp [completes_of_unsupplied hr hs.reg h]
  | accept hp =>
    have hvalid := cmdValid_of_step hr hp hstep (by rw [endEdge_phase]; exact accept_phase_ne_idle i.mode i.len s)
    simp [completes_of_idle hr hp, hvalid, stepsDone_accept, stepsDone_of_idle hp]
  | transaction hp hl h =>
    have hlen := (hs.reg (by simp [hp])).len_valid_of_run hp
    exact h.stepsDone hr hev hp hlen hl
  | finish hp hl =>
    have hlen := (hs.reg (by simp [hp])).len_valid_of_run hp
    rw [completes_of_passOver hr hp hl]
    exact stepsDone_finish hp hlen hl
  | respond => simp at hrsp

/-! ### What a command leaves alone (R30, R34, R38, R79) -/

/-- The number of target bytes a command writes: half its length, none if the length is invalid (R17, R95). -/
def targetLen (i : Instr) : Nat := if i.len.toNat % 4 = 0 then i.len.toNat / 2 else 0

theorem targetLen_of_valid {i : Instr} (h : i.len.toNat % 4 = 0) : targetLen i = i.len.toNat / 2 := if_pos h

theorem targetLen_of_invalid {i : Instr} (h : i.len.toNat % 4 ≠ 0) : targetLen i = 0 := if_neg h

theorem targetLen_le (i : Instr) : targetLen i ≤ i.len.toNat / 2 := by
  unfold targetLen
  split <;> omega

/-- Between the states `s` and `t` of a run in `env` only the host writes `SRC`, and only the host writes `DST` outside the
target bytes of command `i`. Where the host writes nothing at all, the buffer is the same list. -/
structure OthersKept (i : Instr) (s : State) (env : Nat → Edge) (t : State) : Prop where
  src : ∀ a, (∀ j, ∀ c ∈ (env j).srcWrites, c.1.toNat ≠ a) → Memory.read t.src a = Memory.read s.src a
  dst : ∀ a, targetLen i ≤ a → (∀ j, ∀ c ∈ (env j).dstWrites, c.1.toNat ≠ a) →
    Memory.read t.dst a = Memory.read s.dst a
  src_eq : (∀ j, (env j).srcWrites = []) → t.src = s.src
  dst_eq : targetLen i = 0 → (∀ j, (env j).dstWrites = []) → t.dst = s.dst

theorem OthersKept.endEdge {i : Instr} {s t : State} {env : Nat → Edge} (h : OthersKept i s env t) (k : Nat) :
    OthersKept i s env (endEdge (env k) t) where
  src a ha := (hostWriteSrc_read t.src _ a (ha k)).trans (h.src a ha)
  dst a hout ha := (hostWriteDst_read t.dst _ a (ha k)).trans (h.dst a hout ha)
  src_eq hnone := by
    rw [endEdge_eq, hnone k]
    exact h.src_eq hnone
  dst_eq hzero hnone := by
    rw [endEdge_eq, hnone k]
    exact h.dst_eq hzero hnone

/-- A transaction writes `DST` at most at `2 * PIX` and the byte behind it. -/
theorem Transaction.dst {s u : State} {ev : PortEvent} (h : Transaction s ev u) :
    u.dst = s.dst ∨ ∃ w : DstWrite, w.addr.toNat = 2 * s.pix.toNat ∧ u.dst = applyLanes s.dst w := by
  have haddr := targetOffset_toNat s.pix
  cases h with
  | readRed => exact .inl rfl
  | readGreen => exact .inl rfl
  | readBlue => exact .inl rfl
  | nativeWrite => exact .inr ⟨_, haddr, rfl⟩
  | swappedFirst => exact .inr ⟨_, haddr, rfl⟩
  | swappedSecond => exact .inr ⟨_, haddr, rfl⟩

/-- A move of a command writes `DST` at most in the command's target. -/
theorem CommandMove.dst {i : Instr} {s u : State} {ev : Option PortEvent} (h : CommandMove i s ev u) (hs : Serves i s) :
    u.dst = s.dst ∨ ∃ w : DstWrite, w.addr.toNat + 1 < targetLen i ∧ u.dst = applyLanes s.dst w := by
  cases h with
  | accept =>
    obtain ⟨-, hdst, -⟩ := accept_frame i.mode i.len s
    exact .inl hdst
  | transaction hp hl h =>
    have hne : s.phase ≠ .idle := by simp [hp]
    have hlen := (hs.reg hne).len_valid_of_run hp
    rw [hs.len hne] at hlen hl
    refine h.dst.imp_right fun ⟨w, hw, hdst⟩ => ⟨w, ?_, hdst⟩
    rw [targetLen_of_valid hlen]
    omega
  | _ => exact .inl rfl

/-- A move keeps what is not the command's to write. -/
theorem OthersKept.move {i : Instr} {s t u : State} {env : Nat → Edge} {ev : Option PortEvent}
    (h : OthersKept i s env t) (hmove : CommandMove i t ev u) (ht : Serves i t) : OthersKept i s env u := by
  obtain ⟨hsrc, -⟩ := hmove.frame
  refine ⟨by rw [hsrc]; exact h.src, fun a hout ha => ?_, by rw [hsrc]; exact h.src_eq, fun hzero => ?_⟩
  · rw [← h.dst a hout ha]
    obtain hdst | ⟨w, hw, hdst⟩ := hmove.dst ht <;> rw [hdst]
    exact read_applyLanes_other (by omega) (by omega)
  · obtain hdst | ⟨w, hw, -⟩ := hmove.dst ht
    · rw [hdst]
      exact h.dst_eq hzero
    · omega

/-- The host's queue loses the command's word at the accept and nothing after it (R53). -/
theorem CommandMove.commands {i : Instr} {s u : State} {ev : Option PortEvent} (h : CommandMove i s ev u)
    (hrsp : u.responses = s.responses) {cs : List CmdWord} (hc : s.commands = if s.phase = .idle then cs else cs.tail) :
    u.commands = if u.phase = .idle then cs else cs.tail := by
  cases h with
  | wait => exact hc
  | accept hp =>
    rw [if_neg (accept_phase_ne_idle i.mode i.len s), accept_commands, hc, if_pos hp]
  | transaction hp _ h =>
    obtain ⟨hphase, -⟩ := h.frame
    have hcommands : u.commands = s.commands := by cases h <;> rfl
    rw [hcommands, hphase, hc]
  | finish hp =>
    rw [if_neg (by simp [hp])] at hc
    rw [if_neg (by simp)]
    exact hc
  | respond => simp at hrsp

/-- Until a response is added the command goes on being served. -/
theorem CommandMove.serves_of_no_response {i : Instr} {s u : State} {ev : Option PortEvent} (h : CommandMove i s ev u)
    (hs : Serves i s) (hrsp : u.responses = s.responses) : Serves i u := by
  have hno : ¬ (s.phase = .resp ∧ s.edge.rspReady = true) := fun ⟨hp, hrdy⟩ => by
    rw [h.of_respond hp hrdy] at hrsp
    simp at hrsp
  obtain ⟨hserves, -⟩ := h.serves hs hno
  exact hserves

/-! ### What a whole command does (R79, R81, R87) -/

/-- `command_responds`, for a property whose preservation rests on the step the move is. -/
theorem command_responds_of_steps {i : Instr} {s : State} {env : Nat → Edge} {P : Nat → State → Prop} (hs : Serves i s)
    (hspares : ∀ j, (env j).spares i.len.toNat) (hans : s.answeredBy env) (hinit : P 0 (s.under env 0))
    (hkeep : ∀ k t u, ServedRun i s env k t → P k t →
      CommandMove i (t.withScript [env k]) (t.withScript [env k]).portEvent u →
      step (t.withScript [env k]) = .next (endEdge (env k) u) → u.responses = t.responses →
      P (k + 1) (endEdge (env k) u)) :
    ∃ k t, ServedRun i s env k t ∧ P k t ∧ t.phase = .resp ∧
      runEdges (k + 1) (s.under env (k + 1)) =
        .next (endEdge (env k) (((t.withScript [env k]).pushResponse t.rspWord).setPhase .idle)) := by
  obtain ⟨k, t, hrun, hP, hend⟩ := command_responds (P := fun k t => runEdges k (s.under env k) = .next t → P k t) hs
    hspares hans (fun _ => hinit) fun k t u hrun hP hmove hsame hnext => by
      obtain ⟨hstep, -⟩ := run_under_succ hrun.run
      exact hkeep k t u hrun (hP hrun.run) hmove (hstep.symm.trans hnext) hsame
  exact ⟨k, t, hrun, hP hrun.run, hend⟩

/-- What holds after `k` edges of a run from `s`, until the response is taken. -/
structure CommandProgress (i : Instr) (s : State) (env : Nat → Edge) (k : Nat) (t : State) : Prop where
  ports : InProgramOrder i s env k t
  others : OthersKept i s env t
  commands : t.commands = if t.phase = .idle then s.commands else s.commands.tail
  steps : stepsTaken k (s.under env k) = t.stepsDone
  conv : t.phase ≠ .idle → ConvInv t

/-- A run that has not begun. -/
theorem commandProgress_zero (i : Instr) {s : State} (env : Nat → Edge) (hp : s.phase = .idle) :
    CommandProgress i s env 0 (s.under env 0) where
  ports := ⟨rfl, fun _ _ => rfl, fun hne => absurd hp hne, (portsDone_of_idle hp).symm⟩
  others := ⟨fun _ _ => rfl, fun _ _ _ => rfl, fun _ => rfl, fun _ _ => rfl⟩
  commands := (if_pos hp).symm
  steps := (stepsDone_of_idle hp).symm
  conv hne := absurd hp hne

theorem CommandProgress.move {i : Instr} {s t u : State} {env : Nat → Edge} {k : Nat}
    (h : CommandProgress i s env k t) (hrun : ServedRun i s env k t) (he : (env k).spares i.len.toNat)
    (hmove : CommandMove i (t.withScript [env k]) (t.withScript [env k]).portEvent u)
    (hstep : step (t.withScript [env k]) = .next (endEdge (env k) u)) (hrsp : u.responses = t.responses) :
    CommandProgress i s env (k + 1) (endEdge (env k) u) := by
  have ht := serves_withScript hrun.serves [env k]
  obtain ⟨-, -, hsteps⟩ := run_under_succ hrun.run
  obtain ⟨hr, hsrc, hdst⟩ := he
  refine ⟨h.ports.move hrun ⟨hr, hsrc, hdst⟩ hmove hrsp, ?_, hmove.commands hrsp h.commands, ?_, fun hu => ?_⟩
  · have hothers : OthersKept i s env (t.withScript [env k]) := { h.others with }
    exact (hothers.move hmove ht).endEdge k
  · rw [hsteps, h.steps, endEdge_stepsDone, hmove.stepsDone ht hr hstep hrsp]
    rfl
  · have hserves := hmove.serves_of_no_response ht hrsp
    have hne : u.phase ≠ .idle := hu
    rw [← hserves.len hne] at hsrc hdst
    exact (hmove.convInv ht.reg (fun hp => { h.conv hp with }) hne).endEdge (hserves.reg hne) hsrc hdst

theorem Memory.getElem?_bytes (m : Memory) {a n : Nat} (ha : a < n) : (m.bytes n)[a]? = some (Memory.read m a) := by
  simp [Memory.bytes, ha]

theorem Memory.length_bytes (m : Memory) (n : Nat) : (m.bytes n).length = n := by simp [Memory.bytes]

theorem Memory.bytes_congr {m m' : Memory} {n : Nat} (h : ∀ a, a < n → Memory.read m a = Memory.read m' a) :
    m.bytes n = m'.bytes n :=
  List.map_congr_left fun a ha => h a (List.mem_range.1 ha)

/-- The target bytes below `2 * PIX` are those of the reference function (R78). -/
theorem ConvInv.getElem?_convPixels {s : State} (h : ConvInv s) (hp : s.phase ≠ .idle) {n a : Nat}
    (hn : 4 * s.pix.toNat ≤ n) (ha : a < 2 * s.pix.toNat) :
    (convPixels s.mode s.nativeByteOrder (s.src.bytes n))[a]? = some (Memory.read s.dst a) := by
  have hi : a / 2 < s.pix.toNat := by omega
  obtain ⟨hfirst, hsecond⟩ := Prod.ext_iff.1 (h.written hp (a / 2) hi)
  obtain ⟨heven, hodd⟩ := Machine.getElem?_convPixels s.mode s.nativeByteOrder (src := s.src.bytes n) (i := a / 2)
    (by rw [Memory.length_bytes]; omega) (Memory.getElem?_bytes _ (by omega)) (Memory.getElem?_bytes _ (by omega))
    (Memory.getElem?_bytes _ (by omega))
  obtain hpar | hpar : a = 2 * (a / 2) ∨ a = 2 * (a / 2) + 1 := by omega
  · rw [hpar, heven]
    exact congrArg some hfirst.symm
  · rw [hpar, hodd]
    exact congrArg some hsecond.symm

/-- The response word of a command (R54). -/
def commandResponse (i : Instr) : RspWord :=
  if i.len.toNat % 4 = 0 then BitVec.ofNat 32 (i.len.toNat / 2) else 0x40000000#32

/-- What a command has done once its response is taken: `k` edges of `env` lead from `s` to `t`. -/
structure CommandResult (i : Instr) (s : State) (env : Nat → Edge) (k : Nat) (t : State) : Prop where
  run : runEdges k (s.under env k) = .next t
  idle : t.phase = .idle
  commands : t.commands = s.commands.tail
  responses : t.responses = s.responses ++ [commandResponse i]
  steps : stepsTaken k (s.under env k) = commandSteps i
  ports : trace k (s.under env k) = commandTrace i.mode s.nativeByteOrder s.src (targetLen i / 2)
  others : OthersKept i s env t
  target : ∀ a, a < targetLen i →
    (convPixels i.mode s.nativeByteOrder (s.src.bytes i.len.toNat))[a]? = some (Memory.read t.dst a)

/-- The word offered in `RESP` is the command's (R54). -/
theorem Serves.rspWord {i : Instr} {s : State} (h : Serves i s) (hp : s.phase = .resp) :
    s.rspWord = commandResponse i := by
  have hne : s.phase ≠ .idle := by simp [hp]
  have hlen : s.len = i.len := h.len hne
  obtain ⟨hinvalid, hword⟩ | ⟨hvalid, hword, -⟩ :=
    responseWords (s.withScript [.quiet]) ((serves_withScript h _).reg hne) ((rspValid_iff _).2 ⟨hp, rfl⟩)
  · rw [State.withScript_len, hlen] at hinvalid
    rw [commandResponse, if_neg hinvalid]
    exact hword
  · rw [State.withScript_len, hlen] at hvalid hword
    have hbound := i.len.isLt
    have hfits : i.len.toNat / 2 < 2 ^ 32 := by omega
    rw [commandResponse, if_pos hvalid]
    apply BitVec.eq_of_toNat_eq
    rw [BitVec.toNat_ofNat, Nat.mod_eq_of_lt hfits]
    exact hword

/-- The transactions done in `RESP` are all of the command. -/
theorem Serves.portsDone_of_resp {i : Instr} {s : State} (h : Serves i s) (hp : s.phase = .resp) (src : Memory) :
    s.portsDone src = commandTrace i.mode s.nativeByteOrder src (targetLen i / 2) := by
  have hne : s.phase ≠ .idle := by simp [hp]
  obtain ⟨hvalid, hinvalid⟩ := Machine.portsDone_of_resp (src := src) (h.reg hne) hp
  rw [h.len hne, h.mode hne] at hvalid
  rw [h.len hne] at hinvalid
  by_cases hlen : i.len.toNat % 4 = 0
  · rw [hvalid hlen, targetLen_of_valid hlen, Nat.div_div_eq_div_mul]
  · rw [hinvalid hlen, targetLen_of_invalid hlen]
    rfl

/-- In `RESP` the whole target of the command is written as the reference function gives it. -/
theorem CommandProgress.target {i : Instr} {s t : State} {env : Nat → Edge} {k : Nat} (h : CommandProgress i s env k t)
    (ht : Serves i t) (hp : t.phase = .resp) {a : Nat} (ha : a < targetLen i) :
    (convPixels i.mode s.nativeByteOrder (s.src.bytes i.len.toNat))[a]? = some (Memory.read t.dst a) := by
  have hne : t.phase ≠ .idle := by simp [hp]
  by_cases hlen : i.len.toNat % 4 = 0
  · rw [targetLen_of_valid hlen] at ha
    have hpix := (ht.reg hne).resp_done hp (by rwa [ht.len hne])
    rw [ht.len hne] at hpix
    rw [← ht.mode hne, ← h.ports.order, ← Memory.bytes_congr h.ports.src]
    exact (h.conv hne).getElem?_convPixels hne (by omega) (by omega)
  · rw [targetLen_of_invalid hlen] at ha
    omega

/-- An idle block serves the word on the channel. -/
theorem serves_of_offered {s : State} {w : CmdWord} {rest : List CmdWord} (hp : s.phase = .idle)
    (hc : s.commands = w :: rest) : Serves (decodeWord w) s :=
  ⟨fun _ => by simp [hc], fun hne => absurd hp hne, fun hne => absurd hp hne, fun hne => absurd hp hne⟩

/-- A command that is answered does the whole of what R79 and R87 say. -/
theorem command_result {s : State} {w : CmdWord} {rest : List CmdWord} {env : Nat → Edge} (hp : s.phase = .idle)
    (hc : s.commands = w :: rest) (hspares : ∀ j, (env j).spares (decodeWord w).len.toNat) (hans : s.answeredBy env) :
    ∃ k t, CommandResult (decodeWord w) s env k t := by
  have hs := serves_of_offered hp hc
  obtain ⟨k, t, ⟨hrun, ht, hrsp⟩, hprog, hresp, hend⟩ := command_responds_of_steps hs hspares hans
    (commandProgress_zero (decodeWord w) env hp)
    (fun k t u hrun hprog hmove hstep hsame => hprog.move hrun (hspares k) hmove hstep hsame)
  have hne : t.phase ≠ .idle := by simp [hresp]
  obtain ⟨hr, -, hdst⟩ := hspares k
  obtain ⟨hstep, htrace, hsteps⟩ := run_under_succ hrun
  have hrdy := rspReady_of_step (s := t.withScript [env k]) hr hresp (hstep.symm.trans hend) (by simp)
  refine ⟨k + 1, _, hend, rfl, ?_, ?_, ?_, ?_, ?_, fun a ha => ?_⟩
  · exact hprog.commands.trans (if_neg hne)
  · rw [endEdge_eq, ← ht.rspWord hresp, ← hrsp]
    rfl
  · rw [hsteps, hprog.steps, completes_of_resp (s := t.withScript [env k]) hr hresp, if_pos hrdy]
    exact stepsDone_respond hresp (ht.len hne)
  · rw [htrace, hprog.ports.ports, portEvent_of_not_run (by simp [hresp]), ht.portsDone_of_resp hresp, hprog.ports.order]
    exact List.append_nil _
  · exact OthersKept.endEdge (t := ((t.withScript [env k]).pushResponse t.rspWord).setPhase .idle)
      { hprog.others with } k
  · have hkept : ∀ c ∈ (env k).dstWrites, c.1.toNat ≠ a := fun c hcw hca => by
      have := hdst c hcw
      have := targetLen_le (decodeWord w)
      omega
    rw [hprog.target ht hresp ha]
    exact congrArg some (hostWriteDst_read t.dst _ a hkept).symm

/-- Settles O47: the run that `command_result` gives leaves the reference function's bytes, or on the error no byte. -/
theorem commandComputesConv : Obligations.CommandComputesConv := by
  intro s w rest env hp hc hspares hans
  obtain ⟨k, t, h⟩ := command_result hp hc hspares hans
  refine ⟨k, t, h.run, h.idle, by rw [h.commands, hc]; rfl, h.others.src, h.others.src_eq, fun dst hconv => ?_,
    fun e hconv => ?_⟩
  · obtain ⟨hlen, rfl⟩ := conv_eq_ok_iff.1 hconv
    rw [Memory.length_bytes] at hlen
    have hout := targetLen_of_valid hlen
    refine ⟨?_, ?_, fun a ha => h.target a (hout ▸ ha), fun a ha => h.others.dst a (hout ▸ ha)⟩
    · rw [h.responses, commandResponse, if_pos hlen]
    · rw [length_convPixels, Memory.length_bytes]
      omega
  · obtain ⟨hlen, he⟩ := conv_eq_error_iff.1 hconv
    rw [Memory.length_bytes] at hlen
    have hout := targetLen_of_invalid hlen
    refine ⟨he, ?_, fun a => h.others.dst a (by omega), h.others.dst_eq hout⟩
    rw [h.responses, commandResponse, if_neg hlen]

/-- Settles O48: the steps of the run that `command_result` gives, counted. -/
theorem commandStepCount : Obligations.CommandStepCount := by
  intro s w rest env hp hc hspares hans
  obtain ⟨k, t, h⟩ := command_result hp hc hspares hans
  refine ⟨k, t, h.run, h.idle, by simp [h.responses], fun hlen => ?_, fun hlen => ?_⟩
  · rw [h.steps, commandSteps, if_pos hlen]
    exact ⟨rfl, by simp⟩
  · rw [h.steps, commandSteps, if_neg hlen]

/-- Settles O50: both words have length 0, which every host spares, and a run over no pixel is what `command_result` gives. -/
theorem emptyCommand : Obligations.EmptyCommand := by
  intro s w rest env hw hp hc hr hans
  have hlen : (decodeWord w).len.toNat = 0 := by obtain rfl | rfl := hw <;> decide
  have hspares : ∀ j, (env j).spares (decodeWord w).len.toNat := fun j => by
    rw [hlen]
    exact ⟨hr j, fun _ _ => Nat.zero_le _, fun _ _ => Nat.zero_le _⟩
  obtain ⟨k, t, h⟩ := command_result hp hc hspares hans
  have hout : targetLen (decodeWord w) = 0 := by simp [targetLen, hlen]
  refine ⟨k, t, h.run, ?_, ?_, h.idle, ?_, by rw [h.commands, hc]; rfl, h.others.src,
    fun a => h.others.dst a (by omega), h.others.src_eq, h.others.dst_eq hout⟩
  · rw [h.steps, commandSteps, hlen]
    rfl
  · rw [h.ports, hout]
    rfl
  · rw [h.responses, commandResponse, hlen]
    rfl

end Sys2Proof.Machine

/-!
PROOFS. The exceptions (60_exceptions.md): under the register invariant the only step that does not go on is one the host's
misuse refuses.
-/

namespace Sys2Proof.Machine

/-- A host that breaks a prohibition is refused (R109, R110). -/
theorem step_of_misuse {s : State} {r : Refusal} (h : hostMisuse s = some r) : step s = .refused r := by
  simp [step, h]

/-- Reset wins over what is due (R105). -/
theorem step_of_reset {s : State} (hm : hostMisuse s = none) (hr : s.edge.rst = true) :
    step s = .next (endEdge s.edge (resetEdge s)) := by
  simp [step, hm, hr]

/-- A due command is accepted in `IDLE`, and after that one of its steps is enabled (R88). -/
theorem exec_goes_on {s : State} {i : Instr} (hreg : RegInv s) (hr : s.edge.rst = false) (hd : s.due = some i) :
    ∃ u, exec i s = .next u := by
  by_cases hp : s.phase = .idle
  · exact ⟨_, exec_of_idle i hp⟩
  · obtain rfl : .ofModeLen s.mode s.len = i := Option.some.inj ((due_inProgress hp).symm.trans hd)
    obtain ⟨u, hu, -⟩ := exec_move hreg (mode_ofModeLen s.mode s.len) hr hp
    exact ⟨u, hu⟩

/-- With a host that keeps its prohibitions, an edge is a reset, a wait for a command or a step of the due command, and each
goes on (R88). -/
theorem step_goes_on {s : State} (hreg : RegInv s) (hm : hostMisuse s = none) : ∃ t, step s = .next t := by
  cases hr : s.edge.rst with
  | true => exact ⟨_, step_of_reset hm hr⟩
  | false =>
    cases hd : s.due with
    | none => exact ⟨_, step_of_no_due hm hr hd⟩
    | some i =>
      obtain ⟨u, hu⟩ := exec_goes_on hreg hr hd
      exact ⟨endEdge s.edge u, by rw [step_of_due hm hr hd, hu, mapNext]⟩

/-- Settles O39: a misuse is refused, which is no fault, and without one the step goes on. -/
theorem nothingElseFails : Obligations.NothingElseFails := by
  refine fun s hreg => ⟨step_goes_on hreg, fun f hf => ?_⟩
  cases hm : hostMisuse s with
  | some r => cases (step_of_misuse hm).symm.trans hf
  | none =>
    obtain ⟨t, ht⟩ := step_goes_on hreg hm
    cases ht.symm.trans hf

end Sys2Proof.Machine

/-!
PROOFS. Reset and hazards (70_reset_and_hazards.md): an edge with `rst` = 1, an acknowledge nobody asked for, a host
that touches the buffers of a command, a block that waits, and what an unfinished command has written.
-/

namespace Sys2Proof.Machine

/-! ### The host's prohibitions (R109, R110) -/

/-- Settles O33: outside `IDLE` and without reset the two prohibitions are looked at in this order. -/
theorem hostProhibitionsRefused : Obligations.HostProhibitionsRefused := by
  refine fun s hp hr => ⟨fun hsrc => step_of_misuse ?_, fun hspared hdst => step_of_misuse ?_⟩
  · simp [hostMisuse, hp, hr, hsrc]
  · have hno : ¬ ∃ c ∈ s.edge.srcWrites, c.1.toNat < s.len.toNat := fun ⟨c, hc, hlt⟩ => by
      have := hspared c hc
      omega
    simp only [hostMisuse, hp, hr, Bool.false_eq_true, or_self, if_false, List.any_eq_true, decide_eq_true_eq, hno,
      hdst, if_true]

/-! ### An edge with reset (R105) -/

/-- At a reset edge nothing is refused: the command whose buffers the host may not touch is given up. -/
theorem hostMisuse_of_reset {s : State} (hr : s.edge.rst = true) : hostMisuse s = none := by simp [hostMisuse, hr]

/-- Settles O18: `rst` gates every line, and the reset edge is the same whatever was due. -/
theorem resetWinsOverEveryStep : Obligations.ResetWinsOverEveryStep := by
  intro s hr
  have hidle : (endEdge s.edge (resetEdge s)).phase = .idle := rfl
  refine ⟨by simp [State.cmdReady, hr], by simp [State.rspValid, hr], by simp [State.srcReq, hr],
    by simp [State.dstReq, hr], by simp [State.portEvent, hr],
    _, step_of_reset (hostMisuse_of_reset hr) hr, hidle, rfl, rfl, rfl, rfl, rfl, ?_⟩
  have hrun : (endEdge s.edge (resetEdge s)).phase ≠ .run := by rw [hidle]; simp
  exact ⟨srcRequest_of_not_run hrun, dstRequest_of_not_run hrun,
    fun a ha => hostWriteSrc_read s.src _ a ha, fun a ha => hostWriteDst_read s.dst _ a ha, rfl, rfl, rfl,
    fun hlow => cmdReady_of_idle hidle hlow⟩

/-! ### An acknowledge without a request (R116) -/

/-- Two edges that differ at most in an acknowledge that state `s` does not ask for. -/
structure HeededAlike (s : State) (e e' : Edge) : Prop where
  rst : e'.rst = e.rst
  cmdHold : e'.cmdHold = e.cmdHold
  rspReady : e'.rspReady = e.rspReady
  srcAck : s.srcRequest ≠ none → e'.srcAck = e.srcAck
  dstAck : s.dstRequest ≠ none → e'.dstAck = e.dstAck
  srcWrites : e'.srcWrites = e.srcWrites
  dstWrites : e'.dstWrites = e.dstWrites

section Heeded

variable {s : State} {e e' : Edge} (h : HeededAlike s e e') {i : Instr} {l : List Edge}
include h

theorem HeededAlike.exec_readSource {k : Nat} {f : Byte → PixelStage} (hreq : s.srcRequest ≠ none)
    (hexec : ∀ es, exec i (s.withScript es) = readSource k f (s.withScript es)) :
    exec i (s.withScript (e' :: l)) = mapNext (fun t => t.withScript (e' :: l)) (exec i (s.withScript (e :: l))) := by
  rw [hexec, hexec, readSource, readSource, State.withScript_edge, State.withScript_edge, h.srcAck hreq]
  cases e.srcAck <;> rfl

theorem HeededAlike.exec_writeTarget (w : DstWrite) (f : State → State) (hreq : s.dstRequest ≠ none)
    (hexec : ∀ es, exec i (s.withScript es) = writeTarget w f (s.withScript es))
    (hf : ∀ (t : State) (es : List Edge), f (t.withScript es) = (f t).withScript es) :
    exec i (s.withScript (e' :: l)) = mapNext (fun t => t.withScript (e' :: l)) (exec i (s.withScript (e :: l))) := by
  rw [hexec, hexec, writeTarget, writeTarget, State.withScript_edge, State.withScript_edge, h.dstAck hreq]
  cases e.dstAck with
  | false => rfl
  | true => exact congrArg Host.Outcome.next (hf ((s.withScript (e :: l)).setDst _) (e' :: l))

/-- Each transaction of a pixel step heeds the acknowledge of the port it is on, where it has a request. -/
theorem HeededAlike.exec_pixel (hi : i.mode = s.mode) (hp : s.phase = .run) (hl : 4 * s.pix.toNat < s.len.toNat) :
    exec i (s.withScript (e' :: l)) = mapNext (fun t => t.withScript (e' :: l)) (exec i (s.withScript (e :: l))) := by
  have hleft := (pixelLeft_iff s).2 hl
  cases hg : s.stage with
  | readRed =>
    exact h.exec_readSource (by simp [State.srcRequest, hp, hleft, hg])
      fun es => exec_readRed (s := s.withScript es) hp hl i hg
  | readGreen r =>
    exact h.exec_readSource (by simp [State.srcRequest, hp, hleft, hg])
      fun es => exec_readGreen (s := s.withScript es) hp hl i hg
  | readBlue r g =>
    exact h.exec_readSource (by simp [State.srcRequest, hp, hleft, hg])
      fun es => exec_readBlue (s := s.withScript es) hp hl i hg
  | writeFirst r g b =>
    cases hm : s.mode with
    | packedNative =>
      exact h.exec_writeTarget (nativeWrite s.nativeByteOrder s.pix r g b) nextPixel
        (by simp [State.dstRequest, hp, hleft, hg, hm])
        (fun es => exec_nativeWrite (s := s.withScript es) hp hl (hi.trans hm) hg) (fun _ _ => rfl)
    | bigEndianSwapped =>
      exact h.exec_writeTarget (swappedFirstWrite s.pix r g b) (fun t => t.setStage (.writeSecond r g b))
        (by simp [State.dstRequest, hp, hleft, hg, hm])
        (fun es => exec_swappedFirst (s := s.withScript es) hp hl (hi.trans hm) hg) (fun _ _ => rfl)
  | writeSecond r g b =>
    cases hm : s.mode with
    | packedNative =>
      obtain ⟨-, hfault⟩ := faultsWhereNoStepIsEnabled
      cases i with
      | convNative len =>
        rw [hfault len (s.withScript (e' :: l)) r g b hp hl hg, hfault len (s.withScript (e :: l)) r g b hp hl hg]
        rfl
      | convSwapped len => cases hi.trans hm
    | bigEndianSwapped =>
      exact h.exec_writeTarget (swappedSecondWrite s.pix r g b) nextPixel
        (by simp [State.dstRequest, hp, hleft, hg, hm])
        (fun es => exec_swappedSecond (s := s.withScript es) hp hl (hi.trans hm) hg) (fun _ _ => rfl)

/-- No other step of the command that is due heeds an acknowledge. -/
theorem HeededAlike.exec (hi : s.phase ≠ .idle → i.mode = s.mode) :
    exec i (s.withScript (e' :: l)) = mapNext (fun t => t.withScript (e' :: l)) (exec i (s.withScript (e :: l))) := by
  cases hp : s.phase with
  | idle =>
    rw [exec_of_idle i (s := s.withScript (e' :: l)) hp, exec_of_idle i (s := s.withScript (e :: l)) hp]
    exact congrArg Host.Outcome.next (by unfold accept; split <;> rfl)
  | run =>
    obtain hl | hl | hl := Nat.lt_trichotomy (4 * s.pix.toNat) s.len.toNat
    · exact h.exec_pixel (hi (by simp [hp])) hp hl
    · rw [exec_finish (s := s.withScript (e' :: l)) i hp hl, exec_finish (s := s.withScript (e :: l)) i hp hl]
      rfl
    · rw [exec_of_pix_beyond (s := s.withScript (e' :: l)) i hp hl,
        exec_of_pix_beyond (s := s.withScript (e :: l)) i hp hl]
      rfl
  | resp =>
    rw [exec_respond (s := s.withScript (e' :: l)) i hp, exec_respond (s := s.withScript (e :: l)) i hp]
    rw [respond, respond, State.withScript_edge, State.withScript_edge, h.rspReady]
    cases e.rspReady <;> rfl

/-- The step of a state does not tell the two edges apart. -/
theorem HeededAlike.step (l : List Edge) : step (s.withScript (e' :: l)) = step (s.withScript (e :: l)) := by
  have hmisuse : hostMisuse (s.withScript (e' :: l)) = hostMisuse (s.withScript (e :: l)) := by
    simp only [hostMisuse, State.withScript_edge, h.rst, h.srcWrites, h.dstWrites]
    rfl
  have hdue : (s.withScript (e' :: l)).due = (s.withScript (e :: l)).due := by
    simp [State.due, State.cmdValid, h.cmdHold, State.inProgress]
  have hend : ∀ t : State, t.script = e :: l → endEdge e' (t.withScript (e' :: l)) = endEdge e t := fun t ht => by
    simp [endEdge_eq, h.srcWrites, h.dstWrites, ht, State.withScript]
  cases hm : hostMisuse (s.withScript (e :: l)) with
  | some r => rw [step_of_misuse hm, step_of_misuse (hmisuse.trans hm)]
  | none =>
    cases hr : e.rst with
    | true =>
      rw [step_of_reset hm hr, step_of_reset (hmisuse.trans hm) (h.rst.trans hr)]
      exact congrArg _ (hend (resetEdge (s.withScript (e :: l))) rfl)
    | false =>
      cases hd : (s.withScript (e :: l)).due with
      | none =>
        rw [step_of_no_due hm hr hd, step_of_no_due (hmisuse.trans hm) (h.rst.trans hr) (hdue.trans hd)]
        exact congrArg _ (hend (s.withScript (e :: l)) rfl)
      | some i =>
        rw [step_of_due hm hr hd, step_of_due (hmisuse.trans hm) (h.rst.trans hr) (hdue.trans hd),
          h.exec (fun hp => due_mode (s := s.withScript (e :: l)) hd hp), mapNext_mapNext]
        cases hu : Machine.exec i (s.withScript (e :: l)) with
        | next u =>
          obtain ⟨-, -, hscript, -⟩ := exec_frame hu
          exact congrArg _ (hend u hscript)
        | fault r => rfl
        | refused r => rfl

end Heeded

/-- Settles O15: the two edges differ in an acknowledge that is not asked for. -/
theorem acknowledgeWithoutRequestIgnored : Obligations.AcknowledgeWithoutRequestIgnored := by
  intro s e rest x hscript
  have hs : s = s.withScript (e :: rest) := by rw [← hscript]; rfl
  refine ⟨fun hno => ?_, fun hno => ?_⟩
  · have h : HeededAlike s e { e with srcAck := x } :=
      ⟨rfl, rfl, rfl, fun hreq => absurd hno hreq, fun _ => rfl, rfl, rfl⟩
    exact (h.step rest).trans (congrArg step hs.symm)
  · have h : HeededAlike s e { e with dstAck := x } :=
      ⟨rfl, rfl, rfl, fun _ => rfl, fun hreq => absurd hno hreq, rfl, rfl⟩
    exact (h.step rest).trans (congrArg step hs.symm)

/-! ### A block that waits (R88, R118) -/

/-- What a block that is not supplied is waiting for. -/
theorem not_suppliedBy_iff (s : State) (e : Edge) :
    ¬ s.suppliedBy e ↔ (s.srcRequest ≠ none ∧ e.srcAck = false) ∨ (s.dstRequest ≠ none ∧ e.dstAck = false) ∨
      (s.phase = .resp ∧ e.rspReady = false) ∨ (s.phase = .idle ∧ e.cmdHold = true) := by
  simp only [State.suppliedBy, Classical.not_and_iff_not_or_not, Classical.not_imp, Bool.not_eq_true, Bool.not_eq_false]

/-- A command that is not supplied changes nothing. -/
theorem exec_of_unsupplied {s : State} {i : Instr} (hi : i.mode = s.mode) (hp : s.phase ≠ .idle)
    (h : ¬ s.suppliedBy s.edge) : exec i s = .next s := by
  obtain ⟨hreq, ha⟩ | ⟨hreq, ha⟩ | ⟨hresp, hrdy⟩ | ⟨hidle, -⟩ := (not_suppliedBy_iff s s.edge).1 h
  · obtain ⟨a, hreq⟩ := Option.ne_none_iff_exists'.1 hreq
    obtain ⟨hwait, -⟩ := exec_of_srcRequest i hreq
    exact hwait ha
  · obtain ⟨w, hreq⟩ := Option.ne_none_iff_exists'.1 hreq
    obtain ⟨hwait, -⟩ := exec_of_dstRequest hi hreq
    exact hwait ha
  · simp [exec_respond i hresp, respond, hrdy]
  · exact absurd hidle hp

/-- An edge that does not supply what the block waits for only ends. -/
theorem step_of_unsupplied {s : State} (hm : hostMisuse s = none) (hr : s.edge.rst = false)
    (h : ¬ s.suppliedBy s.edge) : step s = .next (endEdge s.edge s) := by
  by_cases hp : s.phase = .idle
  · have hhold : s.edge.cmdHold = true := by
      by_contra hne
      exact h (suppliedBy_of_idle hp (by simpa using hne))
    exact step_of_no_due hm hr (due_of_not_offered hp (by simp [State.cmdValid, hhold]))
  · rw [step_of_due hm hr (due_inProgress hp), exec_of_unsupplied (mode_ofModeLen s.mode s.len) hp h]
    rfl

/-- An edge at which the host writes nothing breaks no prohibition. -/
theorem hostMisuse_of_undisturbed {s : State} (he : s.edge.undisturbed) : hostMisuse s = none := by
  obtain ⟨-, hsrc, hdst⟩ := he
  simp [hostMisuse, hsrc, hdst]

theorem endEdge_of_undisturbed {e : Edge} (he : e.undisturbed) (s : State) :
    endEdge e s = s.withScript s.script.tail := by
  obtain ⟨-, hsrc, hdst⟩ := he
  rw [endEdge_eq, hsrc, hdst]
  rfl

/-- With no host write either, nothing is left of such an edge but its entry. -/
theorem step_of_undisturbed_unsupplied {s : State} (he : s.edge.undisturbed) (h : ¬ s.suppliedBy s.edge) :
    step s = .next (s.withScript s.script.tail) := by
  have ⟨hr, _⟩ := he
  rw [step_of_unsupplied (hostMisuse_of_undisturbed he) hr h, endEdge_of_undisturbed he]

/-- Any number of edges that do not supply the block leave it as it is. -/
theorem runEdges_replicate_unsupplied {s : State} {e : Edge} (he : e.undisturbed) (h : ¬ s.suppliedBy e) (n : Nat)
    (rest : List Edge) : runEdges n (s.withScript (List.replicate n e ++ rest)) = .next (s.withScript rest) := by
  induction n with
  | zero => rfl
  | succ n ih =>
    have hstep : step (s.withScript (e :: (List.replicate n e ++ rest))) =
        .next (s.withScript (List.replicate n e ++ rest)) := step_of_undisturbed_unsupplied he h
    exact (runEdges_succ hstep n).trans ih

/-- Settles O35: a state that has no finish due waits for something, and the edges supply nothing. -/
theorem noTimeout : Obligations.NoTimeout := by
  intro s n rest e he hhold hrdy hsrc hdst hreg hleft hscript
  have hno : ¬ s.suppliedBy e := by
    rw [not_suppliedBy_iff]
    cases hp : s.phase with
    | idle => exact .inr (.inr (.inr ⟨rfl, hhold⟩))
    | run =>
      obtain hreq | hreq := request_of_pixelLeft hreg hp (hleft hp)
      · exact .inl ⟨hreq, hsrc⟩
      · exact .inr (.inl ⟨hreq, hdst⟩)
    | resp => exact .inr (.inr (.inl ⟨rfl, hrdy⟩))
  have hrun := runEdges_replicate_unsupplied he hno n rest
  rwa [← hscript] at hrun

/-- A step that changes nothing is all there is from then on. -/
theorem runEdges_of_step_self {s : State} (h : step s = .next s) (n : Nat) : runEdges n s = .next s := by
  induction n with
  | zero => rfl
  | succ n ih => exact (runEdges_succ h n).trans ih

section Settled

variable {s : State} (hscript : s.script = []) (hlow : s.steady.rst = false)
include hscript hlow

theorem edge_undisturbed_of_settled : s.edge.undisturbed := by simp [State.edge, hscript, Edge.undisturbed, hlow]

/-- A settled environment that does not supply the block never does. -/
theorem runEdges_of_settled_unsupplied (h : ¬ s.suppliedBy s.edge) (n : Nat) : runEdges n s = .next s := by
  have hstep := step_of_undisturbed_unsupplied (edge_undisturbed_of_settled hscript hlow) h
  refine runEdges_of_step_self (hstep.trans ?_) n
  rw [hscript, List.tail_nil, ← hscript]
  rfl

end Settled

/-- Settles O53: in each case the settled environment does not supply what the block waits for, and `rst` = 0 lets the
line show. -/
theorem unansweredBlockIsStuck : Obligations.UnansweredBlockIsStuck := by
  intro s n hscript hlow
  obtain ⟨hr, -⟩ := edge_undisturbed_of_settled hscript hlow
  have hstuck := fun h => runEdges_of_settled_unsupplied hscript hlow ((not_suppliedBy_iff s s.edge).2 h) n
  refine ⟨fun hreq hno => ⟨hstuck (.inl ⟨hreq, by simp [State.edge, hscript, hno]⟩), ?_⟩,
    fun hreq hno => ⟨hstuck (.inr (.inl ⟨hreq, by simp [State.edge, hscript, hno]⟩)), ?_⟩,
    fun hp hno => ⟨hstuck (.inr (.inr (.inl ⟨hp, by simp [State.edge, hscript, hno]⟩))), ?_⟩,
    fun hp hno => ⟨hstuck (.inr (.inr (.inr ⟨hp, by simp [State.edge, hscript, hno]⟩))), ?_⟩⟩
  · simp [State.srcReq, hr, Option.isSome_iff_ne_none, hreq]
  · simp [State.dstReq, hr, Option.isSome_iff_ne_none, hreq]
  · exact (rspValid_iff s).2 ⟨hp, hr⟩
  · exact cmdReady_of_idle hp hr

/-! ### A command until its response -/

/-- Responses are added only. -/
theorem step_responses_prefix {s t : State} (h : step s = .next t) : s.responses <+: t.responses := by
  obtain ⟨-, ⟨-, rfl⟩ | ⟨-, -, rfl⟩ | ⟨-, i, u, -, hu, rfl⟩⟩ := step_next h
  · exact List.prefix_rfl
  · exact List.prefix_rfl
  · show s.responses <+: u.responses
    cases exec_next hu with
    | accept =>
      obtain ⟨-, -, hrsp, -⟩ := accept_frame i.mode i.len s
      rw [hrsp]
    | respond => exact List.prefix_append _ _
    | _ => exact List.prefix_rfl

/-- A run has passed through its earlier states, with no more responses. -/
theorem run_under_earlier {s t : State} {env : Nat → Edge} {j k : Nat} (hjk : j ≤ k)
    (h : runEdges k (s.under env k) = .next t) :
    ∃ u, runEdges j (s.under env j) = .next u ∧ u.responses <+: t.responses := by
  induction k, hjk using Nat.le_induction generalizing t with
  | base => exact ⟨t, h, List.prefix_rfl⟩
  | succ k _ ih =>
    obtain ⟨v, hv, hstep⟩ := run_under_pred h
    obtain ⟨u, hu, hpre⟩ := ih hv
    exact ⟨u, hu, hpre.trans (step_responses_prefix (s := v.withScript [env k]) hstep)⟩

/-- A run without a response had none before. -/
theorem run_under_earlier_of_no_response {s t : State} {env : Nat → Edge} {j k : Nat} (hjk : j ≤ k)
    (h : runEdges k (s.under env k) = .next t) (hrsp : t.responses = s.responses) :
    ∃ u, runEdges j (s.under env j) = .next u ∧ u.responses = s.responses := by
  obtain ⟨u, hu, hafter⟩ := run_under_earlier hjk h
  obtain ⟨v, hv, hbefore⟩ := run_under_earlier (Nat.zero_le j) hu
  cases hv
  rw [hrsp] at hafter
  exact ⟨u, hu, hafter.eq_of_length_le hbefore.length_le⟩

/-- Until a response is taken a run serves the command, with every property `P` of its runs that each move but the last
keeps. The environment may stall for ever. -/
theorem served_until_response {i : Instr} {s : State} {env : Nat → Edge} {P : Nat → State → Prop} (hs : Serves i s)
    (hspares : ∀ j, (env j).spares i.len.toNat) (hinit : P 0 (s.under env 0))
    (hkeep : ∀ k t u, ServedRun i s env k t → P k t →
      CommandMove i (t.withScript [env k]) (t.withScript [env k]).portEvent u →
      step (t.withScript [env k]) = .next (endEdge (env k) u) → u.responses = t.responses →
      P (k + 1) (endEdge (env k) u))
    {k : Nat} {t : State} (h : runEdges k (s.under env k) = .next t) (hrsp : t.responses = s.responses) :
    ServedRun i s env k t ∧ P k t := by
  induction k generalizing t with
  | zero =>
    cases h
    exact ⟨⟨rfl, serves_withScript hs _, rfl⟩, hinit⟩
  | succ k ih =>
    obtain ⟨v, hv, hvrsp⟩ := run_under_earlier_of_no_response (Nat.le_succ k) h hrsp
    obtain ⟨hrun, hP⟩ := ih hv hvrsp
    have hserves := serves_withScript hrun.serves [env k]
    obtain ⟨u, hstep, hmove⟩ := hserves.step (hspares k)
    obtain ⟨hnext, -⟩ := run_under_succ hv
    obtain rfl : endEdge (env k) u = t := by
      rw [h, hstep] at hnext
      exact (Host.Outcome.next.inj hnext).symm
    have hsame : u.responses = v.responses := hrsp.trans hvrsp.symm
    have hu := serves_endEdge (hmove.serves_of_no_response hserves hsame) (env k)
    exact ⟨⟨h, hu, hrsp⟩, hkeep k v u hrun hP hmove hstep hsame⟩

/-! ### A command ends if and only if it is answered (R118) -/

/-- `IDLE` is entered with a response only. -/
theorem CommandMove.phase_ne_idle {i : Instr} {s u : State} {ev : Option PortEvent} (h : CommandMove i s ev u)
    (hp : s.phase ≠ .idle) (hrsp : u.responses = s.responses) : u.phase ≠ .idle := by
  cases h with
  | wait => exact hp
  | accept hidle => exact absurd hidle hp
  | transaction _ _ h =>
    obtain ⟨hphase, -⟩ := h.frame
    rwa [hphase]
  | finish => simp
  | respond => simp at hrsp

/-- An edge that does not supply the command leaves it waiting for the same. -/
theorem ServedRun.wait {i : Instr} {s t : State} {env : Nat → Edge} {k : Nat} (h : ServedRun i s env k t)
    (he : (env k).spares i.len.toNat) (hno : ¬ t.suppliedBy (env k)) :
    ServedRun i s env (k + 1) (endEdge (env k) (t.withScript [env k])) := by
  have hserves := serves_withScript h.serves [env k]
  have hm : hostMisuse (t.withScript [env k]) = none :=
    hostMisuse_none_of_spares (fun hp => by rw [hserves.len hp]) he
  obtain ⟨hr, -⟩ := he
  obtain ⟨hnext, -⟩ := run_under_succ h.run
  exact ⟨hnext.trans (step_of_unsupplied hm hr hno), serves_endEdge hserves _, h.responses⟩

/-- A command that is never supplied again stays in its phase for ever. -/
theorem ServedRun.stuck {i : Instr} {s t : State} {env : Nat → Edge} {k : Nat} (h : ServedRun i s env k t)
    (hspares : ∀ j, (env j).spares i.len.toNat) (hno : ∀ j, k ≤ j → ¬ t.suppliedBy (env j)) {n : Nat} (hn : k ≤ n) :
    ∃ u, ServedRun i s env n u ∧ u.phase = t.phase ∧ ∀ e, u.suppliedBy e ↔ t.suppliedBy e := by
  induction n, hn using Nat.le_induction with
  | base => exact ⟨t, h, rfl, fun _ => .rfl⟩
  | succ n hn ih =>
    obtain ⟨u, hu, hphase, hsupply⟩ := ih
    exact ⟨_, hu.wait (hspares n) (mt (hsupply _).1 (hno n hn)), hphase, hsupply⟩

/-- Settles O52: an answered command ends by `command_responds`; one that is at some edge never supplied again is stuck
there, and before that edge it had no response, so it was not idle. -/
theorem commandEndsIffAnswered : Obligations.CommandEndsIffAnswered := by
  intro s env hreg hp hspares
  have hlen : s.inProgress.len = s.len := len_ofModeLen s.mode s.len
  have hs : Serves s.inProgress s := serves_of_not_idle hp hreg (mode_ofModeLen s.mode s.len).symm hlen.symm
  rw [← hlen] at hspares
  constructor
  · rintro ⟨n, u, hu, hidle⟩ k t hk hrsp
    have hbusy : ∀ {j v}, runEdges j (s.under env j) = .next v → v.responses = s.responses →
        ServedRun s.inProgress s env j v ∧ v.phase ≠ .idle :=
      served_until_response (P := fun _ v => v.phase ≠ .idle) hs hspares hp
        fun _ _ _ _ hne hmove _ hsame => hmove.phase_ne_idle hne hsame
    have hkn : k ≤ n := by
      by_contra hlt
      obtain ⟨v, hv, hvrsp⟩ := run_under_earlier_of_no_response (Nat.le_of_not_le hlt) hk hrsp
      obtain rfl : v = u := Host.Outcome.next.inj (hv.symm.trans hu)
      obtain ⟨-, hne⟩ := hbusy hv hvrsp
      exact hne hidle
    obtain ⟨hrun, hne⟩ := hbusy hk hrsp
    obtain ⟨j, hj, hsrc, hdst, hresp, hcmd⟩ : ∃ j, k ≤ j ∧ t.suppliedBy (env j) := by
      by_contra hno
      obtain ⟨v, hv, hphase, -⟩ := hrun.stuck hspares (fun j hj hsup => hno ⟨j, hj, hsup⟩) hkn
      obtain rfl : v = u := Host.Outcome.next.inj (hv.run.symm.trans hu)
      exact hne (hphase.symm.trans hidle)
    exact ⟨fun h => ⟨j, hj, hsrc h⟩, fun h => ⟨j, hj, hdst h⟩, fun h => ⟨j, hj, hresp h⟩, fun h => ⟨j, hj, hcmd h⟩⟩
  · intro hans
    obtain ⟨k, t, -, -, -, hend⟩ := command_responds (P := fun _ _ => True) hs hspares hans trivial
      fun _ _ _ _ _ _ _ => trivial
    exact ⟨k + 1, _, hend, rfl⟩

/-! ### The target of an unfinished command (R107) -/

theorem targetBytesWritten_of_idle {s : State} (hp : s.phase = .idle) : s.targetBytesWritten = 0 := by
  simp [State.targetBytesWritten, hp]

theorem targetBytesWritten_of_writeSecond {s : State} (hp : s.phase ≠ .idle) {r g b : Byte}
    (hg : s.stage = .writeSecond r g b) : s.targetBytesWritten = 2 * s.pix.toNat + 1 := by
  simp [State.targetBytesWritten, hp, hg]

theorem targetBytesWritten_of_not_writeSecond {s : State} (hp : s.phase ≠ .idle)
    (hg : ∀ r g b, s.stage ≠ .writeSecond r g b) : s.targetBytesWritten = 2 * s.pix.toNat := by
  rw [State.targetBytesWritten, if_neg hp]
  cases hstage : s.stage with
  | writeSecond r g b => exact absurd hstage (hg r g b)
  | _ => rfl

/-- The number lies in the target of a valid command. -/
theorem targetBytesWritten_le {s : State} (hreg : RegInv s) (hp : s.phase ≠ .idle) :
    s.targetBytesWritten ≤ s.len.toNat / 2 := by
  have hle := hreg.pix_le
  cases hg : s.stage with
  | writeSecond r g b =>
    obtain ⟨hrun, hl⟩ := hreg.stage_in_run (by simp [hg])
    have hlen := hreg.len_valid_of_run hrun
    rw [targetBytesWritten_of_writeSecond hp hg]
    omega
  | _ =>
    rw [targetBytesWritten_of_not_writeSecond hp (by simp [hg])]
    omega

theorem bytesAcknowledged_append (es es' : List PortEvent) :
    bytesAcknowledged (es ++ es') = bytesAcknowledged es + bytesAcknowledged es' := by
  induction es with
  | nil => simp [bytesAcknowledged]
  | cons ev es ih => cases ev <;> simp only [List.cons_append, bytesAcknowledged, ih, Nat.add_assoc]

/-- A pixel writes two bytes, in one write or in two (R42). -/
theorem bytesAcknowledged_pixelTrace (m : Mode) (o : ByteOrder) (src : Memory) (i : PixIndex) :
    bytesAcknowledged (pixelTrace m o src i) = 2 := by
  cases m <;> simp [pixelTrace, bytesAcknowledged, nativeWrite, swappedFirstWrite, swappedSecondWrite]

theorem bytesAcknowledged_commandTrace (m : Mode) (o : ByteOrder) (src : Memory) (n : Nat) :
    bytesAcknowledged (commandTrace m o src n) = 2 * n := by
  induction n with
  | zero => rfl
  | succ n ih => rw [commandTrace_succ, bytesAcknowledged_append, ih, bytesAcknowledged_pixelTrace, Nat.mul_succ]

/-- The transactions done of a command in progress acknowledge the bytes it has written (R107). -/
theorem bytesAcknowledged_portsDone {s : State} (hreg : s.phase ≠ .idle → RegInv s) (src : Memory) :
    bytesAcknowledged (s.portsDone src) = s.targetBytesWritten := by
  by_cases hp : s.phase = .idle
  · rw [portsDone_of_idle hp, targetBytesWritten_of_idle hp]
    rfl
  · rw [portsDone_of_not_idle hp, bytesAcknowledged_append, bytesAcknowledged_commandTrace]
    cases hg : s.stage with
    | writeSecond r g b =>
      rw [targetBytesWritten_of_writeSecond hp hg, (hreg hp).second_is_swapped r g b hg]
      simp [PixelStage.performed, pixelTrace, bytesAcknowledged, swappedFirstWrite]
    | _ =>
      rw [targetBytesWritten_of_not_writeSecond hp (by simp [hg])]
      rfl

/-- The bytes written are those of the reference function (R78). -/
theorem ConvInv.getElem?_of_written {s : State} (h : ConvInv s) (hreg : RegInv s) (hp : s.phase ≠ .idle) {a : Nat}
    (ha : a < s.targetBytesWritten) :
    (convPixels s.mode s.nativeByteOrder (s.src.bytes s.len.toNat))[a]? = some (Memory.read s.dst a) := by
  by_cases hbelow : a < 2 * s.pix.toNat
  · exact h.getElem?_convPixels hp hreg.pix_le hbelow
  · cases hg : s.stage with
    | writeSecond r g b =>
      obtain ⟨hrun, hl⟩ := hreg.stage_in_run (by simp [hg])
      have hlen := hreg.len_valid_of_run hrun
      rw [targetBytesWritten_of_writeSecond hp hg] at ha
      obtain rfl : a = 2 * s.pix.toNat := by omega
      obtain ⟨hfirst, -⟩ := Machine.getElem?_convPixels s.mode s.nativeByteOrder (src := s.src.bytes s.len.toNat)
        (i := s.pix.toNat) (by rw [Memory.length_bytes]; omega) (Memory.getElem?_bytes _ (by omega))
        (Memory.getElem?_bytes _ (by omega)) (Memory.getElem?_bytes _ (by omega))
      rw [hfirst, h.half_written r g b hg]
      rfl
    | _ =>
      rw [targetBytesWritten_of_not_writeSecond hp (by simp [hg])] at ha
      exact absurd ha hbelow

/-- From `s` to `u` the number of target bytes written has not fallen, and those from it on are as they were. -/
structure WritesBelow (s u : State) : Prop where
  le : s.targetBytesWritten ≤ u.targetBytesWritten
  dst : ∀ a, u.targetBytesWritten ≤ a → Memory.read u.dst a = Memory.read s.dst a

/-- A transaction writes at most the target bytes that it adds to those written. -/
theorem Transaction.writesBelow {s u : State} {ev : PortEvent} (h : Transaction s ev u) (hp : s.phase = .run)
    (hlen : s.len.toNat % 4 = 0) (hl : 4 * s.pix.toNat < s.len.toNat) : WritesBelow s u := by
  have hne : s.phase ≠ .idle := by simp [hp]
  have hnext : ∀ m, (nextPixel (s.setDst m)).targetBytesWritten = 2 * s.pix.toNat + 2 := fun m => by
    have hpix : (nextPixel (s.setDst m)).pix.toNat = s.pix.toNat + 1 := pix_succ_toNat hlen hl
    rw [targetBytesWritten_of_not_writeSecond (s := nextPixel (s.setDst m)) hne (by simp [nextPixel]), hpix]
    omega
  have hread : ∀ g, (∀ r g' b, s.stage ≠ .writeSecond r g' b) → (∀ r g' b, g ≠ .writeSecond r g' b) →
      WritesBelow s (s.setStage g) := fun g hs hg =>
    ⟨by rw [targetBytesWritten_of_not_writeSecond hne hs,
      targetBytesWritten_of_not_writeSecond (s := s.setStage g) hne hg, State.setStage_pix], fun _ _ => rfl⟩
  cases h with
  | readRed hg => exact hread _ (by simp [hg]) (by simp)
  | readGreen r hg => exact hread _ (by simp [hg]) (by simp)
  | readBlue r g hg => exact hread _ (by simp [hg]) (by simp)
  | nativeWrite r g b hm hg =>
    refine ⟨?_, fun a ha => ?_⟩
    · rw [hnext, targetBytesWritten_of_not_writeSecond hne (by simp [hg])]
      omega
    · rw [hnext] at ha
      rw [applyLanes_nativeWrite]
      exact (Memory.read_write_other _ _ (by omega)).trans (Memory.read_write_other _ _ (by omega))
  | swappedFirst r g b hm hg =>
    have hu : ((s.setDst (applyLanes s.dst (swappedFirstWrite s.pix r g b))).setStage
        (.writeSecond r g b)).targetBytesWritten = 2 * s.pix.toNat + 1 := targetBytesWritten_of_writeSecond hne rfl
    refine ⟨?_, fun a ha => ?_⟩
    · rw [hu, targetBytesWritten_of_not_writeSecond hne (by simp [hg])]
      omega
    · rw [hu] at ha
      rw [applyLanes_swappedFirstWrite _ s.nativeByteOrder]
      exact Memory.read_write_other _ _ (by omega)
  | swappedSecond r g b hm hg =>
    refine ⟨?_, fun a ha => ?_⟩
    · rw [hnext, targetBytesWritten_of_writeSecond hne hg]
      omega
    · rw [hnext] at ha
      rw [applyLanes_swappedSecondWrite _ s.nativeByteOrder]
      exact Memory.read_write_other _ _ (by omega)

/-- So does every move before the response. -/
theorem CommandMove.writesBelow {i : Instr} {s u : State} {ev : Option PortEvent} (h : CommandMove i s ev u)
    (hreg : s.phase ≠ .idle → RegInv s) (hrsp : u.responses = s.responses) : WritesBelow s u := by
  cases h with
  | wait => exact ⟨le_rfl, fun _ _ => rfl⟩
  | accept hp =>
    obtain ⟨-, hdst, -⟩ := accept_frame i.mode i.len s
    exact ⟨by simp [targetBytesWritten_of_idle hp], fun a _ => by rw [hdst]⟩
  | transaction hp hl h => exact h.writesBelow hp ((hreg (by simp [hp])).len_valid_of_run hp) hl
  | finish hp =>
    have hsame : (s.setPhase .resp).targetBytesWritten = s.targetBytesWritten := by
      simp [State.targetBytesWritten, hp]
    exact ⟨hsame.ge, fun _ _ => rfl⟩
  | respond => simp at hrsp

/-- Behind the target bytes written only the host has written `DST`. -/
def BehindKept (s : State) (env : Nat → Edge) (t : State) : Prop :=
  ∀ a, t.targetBytesWritten ≤ a → (∀ j, ∀ c ∈ (env j).dstWrites, c.1.toNat ≠ a) →
    Memory.read t.dst a = Memory.read s.dst a

theorem BehindKept.move {s t u : State} {env : Nat → Edge} (h : BehindKept s env t) (hw : WritesBelow t u) (k : Nat) :
    BehindKept s env (endEdge (env k) u) := fun a ha hhost =>
  calc Memory.read (endEdge (env k) u).dst a
      = Memory.read u.dst a := hostWriteDst_read u.dst _ a (hhost k)
    _ = Memory.read t.dst a := hw.dst a ha
    _ = Memory.read s.dst a := h a (hw.le.trans ha) hhost

/-- Settles O51: the run is still that of the command, so the transactions done give the number of bytes and the
conversion invariant their values, every move writes below that number, and a reset edge writes no buffer. -/
theorem unfinishedTargetIsPrefix : Obligations.UnfinishedTargetIsPrefix := by
  intro s t w rest env k hp hc _ hspares hk hrsp
  have hs := serves_of_offered hp hc
  obtain ⟨hrun, hprog⟩ := served_until_response hs hspares (commandProgress_zero (decodeWord w) env hp)
    (fun k t u hrun hprog hmove hstep hsame => hprog.move hrun (hspares k) hmove hstep hsame) hk hrsp
  obtain ⟨-, hbehind⟩ := served_until_response (P := fun _ t => BehindKept s env t) hs hspares (fun _ _ _ => rfl)
    (fun k t u hrun hkept hmove _ hsame => by
      have hreg := (serves_withScript hrun.serves [env k]).reg
      exact BehindKept.move (t := t.withScript [env k]) hkept (hmove.writesBelow hreg hsame) k) hk hrsp
  have ht := hrun.serves
  refine ⟨?_, ?_, fun a ha => ?_, hbehind, fun e hr hno => ?_⟩
  · by_cases hidle : t.phase = .idle
    · simp [targetBytesWritten_of_idle hidle]
    · rw [← ht.len hidle]
      exact targetBytesWritten_le (ht.reg hidle) hidle
  · rw [hprog.ports.ports, bytesAcknowledged_portsDone ht.reg]
  · have hne : t.phase ≠ .idle := fun hidle => by simp [targetBytesWritten_of_idle hidle] at ha
    rw [← ht.mode hne, ← hprog.ports.order, ← Memory.bytes_congr hprog.ports.src, ← ht.len hne]
    exact (hprog.conv hne).getElem?_of_written (ht.reg hne) hne ha
  · refine ⟨_, step_of_reset (s := t.withScript [e]) (hostMisuse_of_reset hr) hr, rfl, ?_, rfl⟩
    rw [endEdge_eq, State.withScript_edge, hno]
    rfl

end Sys2Proof.Machine

/-!
PROOFS. The fixed instances: the five command words of 95_test_vectors.md section 2.6, and the state right after reset as the
first state of the invariants that every step keeps (10_state.md sections 3 and 5).
-/

namespace Sys2Proof.Machine

/-! ### The command words of the test vectors -/

/-- A number that is a command's word is read as that command. -/
theorem decodeTableWord_of_encode_toNat {i : Instr} {w : Nat} (h : (encode i).toNat = w) :
    decodeTableWord 32 w = some i := by
  rw [← h, decodeTableWord_toNat, decodeWord_encode]

/-- Settles O1: each of the five numbers is the word of the command beside it (R44 to R46). -/
theorem decodeSampleWords : Obligations.DecodeSampleWords :=
  ⟨decodeTableWord_of_encode_toNat (by decide), decodeTableWord_of_encode_toNat (by decide),
    decodeTableWord_of_encode_toNat (by decide), decodeTableWord_of_encode_toNat (by decide),
    decodeTableWord_of_encode_toNat (by decide)⟩

/-! ### The invariants right after reset -/

/-- `LEN` = 0 is a valid length with result `OK` and no pixels, and no command is in progress (R22). -/
theorem regInv_reset : RegInv State.reset where
  valid_result _ := ⟨rfl, rfl⟩
  invalid_result hlen := absurd rfl hlen
  pix_le := le_rfl
  resp_done hp := nomatch hp
  stage_in_run hg := absurd rfl hg
  second_is_swapped _ _ _ hg := nomatch hg

/-- Both buffers list nothing. -/
theorem memInv_reset : MemInv State.reset :=
  have ⟨hsrc, hdst⟩ := reset_buffers_wf
  { src_wf := hsrc, src_within := rfl, dst_wf := hdst, dst_within := rfl }

/-- Settles O17: the block is idle with no transaction in flight, the registers hold the values of R22, and neither buffer
lists a byte. -/
theorem resetMeetsInvariants : Obligations.ResetMeetsInvariants :=
  ⟨regInv_reset, memInv_reset, convInv_of_idle rfl rfl⟩

end Sys2Proof.Machine
